-- ==== Sys2Proof/Word.lean ====
section
/-! DEFINITION. The word and the fields an instruction is cut into: their widths (00_scope.md R5, 10_state.md R12).

Addition and subtraction of `Word`s are `BitVec`'s, that is modulo 2^32 and never trapping
(00_scope.md section 5; R12 marks that reading as its decision D4: assumption 6). -/

namespace Sys2Proof

/-- R5, R12: "a 32-bit value, used uniformly for instructions, addresses, register contents, and memory contents". -/
abbrev Word := BitVec 32

/-- One byte of the byte address space (R30: a word is 4 bytes of it). -/
abbrev Byte := BitVec 8

/-- R10: a register number is one of the 5-bit fields `rs`, `rt`, `rd`, so it is always 0 to 31. -/
abbrev RegNum := BitVec 5

/-- R5: the shift amount field, 5 bits. -/
abbrev Shamt := BitVec 5

/-- R5: the opcode and the function code, 6 bits each. -/
abbrev Code6 := BitVec 6

/-- R5: the raw immediate, 16 bits. -/
abbrev Imm16 := BitVec 16

/-- R5: the jump address field, 26 bits. -/
abbrev Addr26 := BitVec 26

end Sys2Proof
end

