-- ==== Sys2Proof/Syntax.lean ====
section
/-! DEFINITION. The instructions (one constructor per row of spec/opcode_table.json, 00_scope.md R2), the nine fields the
Decoder produces from every word (30_encoding.md R51), and the control vector (40_datapath_units.md R75). -/

namespace Sys2Proof

/-- The eighteen instructions, each with every field of its format (R52, R53, R54), the ignored ones too (R59: `rs` of
`sll`, `shamt` of the other R-type instructions), so that no bit of a legal word is lost. The fields of an R-type
constructor stand in the order `rs rt rd shamt`, of an I-type constructor in the order `rs rt imm`. -/
inductive Instr where
  /-- R130, `rs` ignored. -/
  | sll (rs rt rd : RegNum) (shamt : Shamt)
  /-- R120, `shamt` ignored. -/
  | add (rs rt rd : RegNum) (shamt : Shamt)
  /-- R121, `shamt` ignored. -/
  | addu (rs rt rd : RegNum) (shamt : Shamt)
  /-- R122, `shamt` ignored. -/
  | sub (rs rt rd : RegNum) (shamt : Shamt)
  /-- R123, `shamt` ignored. -/
  | subu (rs rt rd : RegNum) (shamt : Shamt)
  /-- R124, `shamt` ignored. -/
  | and (rs rt rd : RegNum) (shamt : Shamt)
  /-- R125, `shamt` ignored. -/
  | or (rs rt rd : RegNum) (shamt : Shamt)
  /-- R126, `shamt` ignored. -/
  | xor (rs rt rd : RegNum) (shamt : Shamt)
  /-- R127, `shamt` ignored. -/
  | slt (rs rt rd : RegNum) (shamt : Shamt)
  /-- R153. -/
  | j (addr : Addr26)
  /-- R151. -/
  | beq (rs rt : RegNum) (imm : Imm16)
  /-- R152. -/
  | bne (rs rt : RegNum) (imm : Imm16)
  /-- R135, destination `rt`. -/
  | addi (rs rt : RegNum) (imm : Imm16)
  /-- R136, destination `rt`. -/
  | addiu (rs rt : RegNum) (imm : Imm16)
  /-- R137, destination `rt`. -/
  | slti (rs rt : RegNum) (imm : Imm16)
  /-- R138, destination `rt`. -/
  | andi (rs rt : RegNum) (imm : Imm16)
  /-- R145, destination `rt`. -/
  | lw (rs rt : RegNum) (imm : Imm16)
  /-- R146, store data `rt`. -/
  | sw (rs rt : RegNum) (imm : Imm16)
deriving DecidableEq, Repr

/-- R51, R73: what the Decoder unit produces from a word, the same nine fields whatever its format. -/
structure Fields where
  opcode : Code6
  rs     : RegNum
  rt     : RegNum
  rd     : RegNum
  shamt  : Shamt
  funct  : Code6
  imm16  : Imm16
  simm32 : Word
  addr26 : Addr26
deriving DecidableEq, Repr

/-- R75, R78: the five symbolic ALU operations. -/
inductive AluOp where
  | and | or | add | slt | xor
deriving DecidableEq, Repr

/-- R75: the eleven signals of the control vector, under the spec's names. -/
structure ControlVector where
  shift    : Bool
  aluSrc   : Bool
  aluOp    : AluOp
  bNegate  : Bool
  branch   : Bool
  jump     : Bool
  memRead  : Bool
  memWrite : Bool
  memToReg : Bool
  regDst   : Bool
  regWrite : Bool
deriving DecidableEq, Repr

end Sys2Proof
end

