-- ==== Sys2Proof/Decode.lean ====
section
/-! DEFINITION. The Decoder unit (30_encoding.md R51, R73), legality (R58), the decoder from words and from bytes to
instructions (R60, R61), and the encoder (R52, R53, R54).

The bit positions are R51's, which the spec takes from general knowledge (D1, G1). PRESUMED, unsafe: assumption 1. -/

namespace Sys2Proof

/-- `sext_32` of 00_scope.md section 5. -/
def sext32 (v : Imm16) : Word := v.signExtend 32

/-- `zext_32` of 00_scope.md section 5, from any narrower width. -/
def zext32 {n : Nat} (v : BitVec n) : Word := v.zeroExtend 32

/-- R51: the nine fields of an instruction word, pure bit-slices of it. -/
def Fields.ofWord (w : Word) : Fields where
  opcode := w.extractLsb' 26 6
  rs     := w.extractLsb' 21 5
  rt     := w.extractLsb' 16 5
  rd     := w.extractLsb' 11 5
  shamt  := w.extractLsb' 6 5
  funct  := w.extractLsb' 0 6
  imm16  := w.extractLsb' 0 16
  simm32 := sext32 (w.extractLsb' 0 16)
  addr26 := w.extractLsb' 0 26

/-- The nine fields of an R-type word with opcode 0 (R52): the slices R51 takes from its parts. -/
def Fields.rType (rs rt rd : RegNum) (shamt : Shamt) (funct : Code6) : Fields where
  opcode := 0
  rs     := rs
  rt     := rt
  rd     := rd
  shamt  := shamt
  funct  := funct
  imm16  := rd ++ shamt ++ funct
  simm32 := sext32 (rd ++ shamt ++ funct)
  addr26 := rs ++ rt ++ rd ++ shamt ++ funct

/-- The nine fields of an I-type word (R53): `rd`, `shamt` and `funct` are slices of the immediate. -/
def Fields.iType (opcode : Code6) (rs rt : RegNum) (imm : Imm16) : Fields where
  opcode := opcode
  rs     := rs
  rt     := rt
  rd     := imm.extractLsb' 11 5
  shamt  := imm.extractLsb' 6 5
  funct  := imm.extractLsb' 0 6
  imm16  := imm
  simm32 := sext32 imm
  addr26 := rs ++ rt ++ imm

/-- The nine fields of a J-type word (R54): every field but the opcode is a slice of the address field. -/
def Fields.jType (opcode : Code6) (addr : Addr26) : Fields where
  opcode := opcode
  rs     := addr.extractLsb' 21 5
  rt     := addr.extractLsb' 16 5
  rd     := addr.extractLsb' 11 5
  shamt  := addr.extractLsb' 6 5
  funct  := addr.extractLsb' 0 6
  imm16  := addr.extractLsb' 0 16
  simm32 := sext32 (addr.extractLsb' 0 16)
  addr26 := addr

/-- R58, the function codes legal under opcode 0. -/
def legalFunct (funct : Code6) : Bool :=
  funct == 0 || funct == 32 || funct == 33 || funct == 34 || funct == 35 || funct == 36 || funct == 37 ||
    funct == 38 || funct == 42

/-- R58, the opcodes other than 0 that are legal, whatever the function code. -/
def legalOpcode (opcode : Code6) : Bool :=
  opcode == 2 || opcode == 4 || opcode == 5 || opcode == 8 || opcode == 9 || opcode == 10 || opcode == 12 ||
    opcode == 35 || opcode == 43

/-- R58: the only legality check in CORE. -/
def legalPair (opcode funct : Code6) : Bool :=
  if opcode == 0 then legalFunct funct else legalOpcode opcode

/-- The nine fields that the Decoder unit produces for an instruction (R51 to R54). -/
def Instr.fields : Instr → Fields
  | .sll rs rt rd shamt  => .rType rs rt rd shamt 0
  | .add rs rt rd shamt  => .rType rs rt rd shamt 32
  | .addu rs rt rd shamt => .rType rs rt rd shamt 33
  | .sub rs rt rd shamt  => .rType rs rt rd shamt 34
  | .subu rs rt rd shamt => .rType rs rt rd shamt 35
  | .and rs rt rd shamt  => .rType rs rt rd shamt 36
  | .or rs rt rd shamt   => .rType rs rt rd shamt 37
  | .xor rs rt rd shamt  => .rType rs rt rd shamt 38
  | .slt rs rt rd shamt  => .rType rs rt rd shamt 42
  | .j addr              => .jType 2 addr
  | .beq rs rt imm       => .iType 4 rs rt imm
  | .bne rs rt imm       => .iType 5 rs rt imm
  | .addi rs rt imm      => .iType 8 rs rt imm
  | .addiu rs rt imm     => .iType 9 rs rt imm
  | .slti rs rt imm      => .iType 10 rs rt imm
  | .andi rs rt imm      => .iType 12 rs rt imm
  | .lw rs rt imm        => .iType 35 rs rt imm
  | .sw rs rt imm        => .iType 43 rs rt imm

/-- Why no instruction is read. The first two are R58's illegal instructions; the third is the model's own, for a
byte sequence too short to be a word. -/
inductive DecodeError where
  /-- The opcode is none of R60's. -/
  | illegalOpcode (opcode : Code6)
  /-- The opcode is 0 and the function code is none of R61's. -/
  | illegalFunct (funct : Code6)
  /-- Fewer than four bytes were given. -/
  | truncated
deriving DecidableEq, Repr

/-- R61: the secondary map, for opcode 0. -/
def decodeRType (f : Fields) : Except DecodeError Instr :=
  match f.funct.toNat with
  | 0  => .ok (.sll f.rs f.rt f.rd f.shamt)
  | 32 => .ok (.add f.rs f.rt f.rd f.shamt)
  | 33 => .ok (.addu f.rs f.rt f.rd f.shamt)
  | 34 => .ok (.sub f.rs f.rt f.rd f.shamt)
  | 35 => .ok (.subu f.rs f.rt f.rd f.shamt)
  | 36 => .ok (.and f.rs f.rt f.rd f.shamt)
  | 37 => .ok (.or f.rs f.rt f.rd f.shamt)
  | 38 => .ok (.xor f.rs f.rt f.rd f.shamt)
  | 42 => .ok (.slt f.rs f.rt f.rd f.shamt)
  | _  => .error (.illegalFunct f.funct)

/-- R60: the primary map. -/
def decodeFields (f : Fields) : Except DecodeError Instr :=
  match f.opcode.toNat with
  | 0  => decodeRType f
  | 2  => .ok (.j f.addr26)
  | 4  => .ok (.beq f.rs f.rt f.imm16)
  | 5  => .ok (.bne f.rs f.rt f.imm16)
  | 8  => .ok (.addi f.rs f.rt f.imm16)
  | 9  => .ok (.addiu f.rs f.rt f.imm16)
  | 10 => .ok (.slti f.rs f.rt f.imm16)
  | 12 => .ok (.andi f.rs f.rt f.imm16)
  | 35 => .ok (.lw f.rs f.rt f.imm16)
  | 43 => .ok (.sw f.rs f.rt f.imm16)
  | _  => .error (.illegalOpcode f.opcode)

/-- The decoder: total on all 2^32 words, rejecting the illegal ones by name. -/
def decode (w : Word) : Except DecodeError Instr := decodeFields (Fields.ofWord w)

/-- The word that four bytes stand for, the first byte holding bits 7 to 0 as spec/opcode_table.json numbers them. -/
def wordOfTableBytes (b0 b1 b2 b3 : Byte) : Word := b3 ++ b2 ++ b1 ++ b0

/-- The decoder on any bytes: the instruction of the first four and the rest of the list. -/
def decodeBytes : List Byte → Except DecodeError (Instr × List Byte)
  | b0 :: b1 :: b2 :: b3 :: rest =>
    match decode (wordOfTableBytes b0 b1 b2 b3) with
    | .ok i => .ok (i, rest)
    | .error e => .error e
  | _ => .error .truncated

/-- The instruction the decoder reads from a word of spec/opcode_table.json (every row has 32 bits; the bits above
`nbits` are 0). -/
def decodeTableWord (nbits w : Nat) : Option Instr :=
  match decode (BitVec.ofNat 32 (w % 2 ^ nbits)) with
  | .ok i => some i
  | .error _ => none

/-- R52. -/
def encodeR (rs rt rd : RegNum) (shamt : Shamt) (funct : Code6) : Word := 0#6 ++ rs ++ rt ++ rd ++ shamt ++ funct

/-- R53. -/
def encodeI (opcode : Code6) (rs rt : RegNum) (imm : Imm16) : Word := opcode ++ rs ++ rt ++ imm

/-- R54. -/
def encodeJ (opcode : Code6) (addr : Addr26) : Word := opcode ++ addr

/-- The word of an instruction, from the tables of R60 and R61. -/
def encode : Instr → Word
  | .sll rs rt rd shamt  => encodeR rs rt rd shamt 0
  | .add rs rt rd shamt  => encodeR rs rt rd shamt 32
  | .addu rs rt rd shamt => encodeR rs rt rd shamt 33
  | .sub rs rt rd shamt  => encodeR rs rt rd shamt 34
  | .subu rs rt rd shamt => encodeR rs rt rd shamt 35
  | .and rs rt rd shamt  => encodeR rs rt rd shamt 36
  | .or rs rt rd shamt   => encodeR rs rt rd shamt 37
  | .xor rs rt rd shamt  => encodeR rs rt rd shamt 38
  | .slt rs rt rd shamt  => encodeR rs rt rd shamt 42
  | .j addr              => encodeJ 2 addr
  | .beq rs rt imm       => encodeI 4 rs rt imm
  | .bne rs rt imm       => encodeI 5 rs rt imm
  | .addi rs rt imm      => encodeI 8 rs rt imm
  | .addiu rs rt imm     => encodeI 9 rs rt imm
  | .slti rs rt imm      => encodeI 10 rs rt imm
  | .andi rs rt imm      => encodeI 12 rs rt imm
  | .lw rs rt imm        => encodeI 35 rs rt imm
  | .sw rs rt imm        => encodeI 43 rs rt imm

end Sys2Proof
end

