-- ==== Sys2Proof/Machine/Control.lean ====
section
/-! DEFINITION. The Control Unit (40_datapath_units.md section 4): a mapping from (opcode, function code) alone to the
control vector or to a failure. -/

namespace Sys2Proof.Machine

/-- R78, in its order, `ADD` otherwise. -/
def deriveAluOp (opcode funct : Code6) : AluOp :=
  if (opcode == 0 && funct == 42) || opcode == 10 then .slt
  else if (opcode == 0 && funct == 36) || opcode == 2 || opcode == 12 || (opcode == 0 && funct == 0) then .and
  else if opcode == 0 && funct == 37 then .or
  else if opcode == 0 && funct == 38 then .xor
  else .add

/-- R76 to R85, one line a signal. The rules "are defined for legal pairs only": `control` asks first. -/
def deriveControl (opcode funct : Code6) : ControlVector where
  shift    := opcode == 0 && funct == 0
  aluSrc   := decide (5 < opcode.toNat)
  aluOp    := deriveAluOp opcode funct
  bNegate  := opcode == 4 || opcode == 5 || opcode == 10 || (opcode == 0 && (funct == 34 || funct == 35 || funct == 42))
  branch   := opcode == 4 || opcode == 5
  jump     := opcode == 2
  memRead  := opcode == 35
  memWrite := opcode == 43
  memToReg := opcode == 35
  regDst   := opcode == 0
  regWrite := opcode == 0 || opcode == 8 || opcode == 9 || opcode == 10 || opcode == 35 || opcode == 12

/-- R74, R87: the control vector of a legal pair, `none` ("yields no valid vector") for any other. -/
def control (opcode funct : Code6) : Option ControlVector :=
  if legalPair opcode funct then some (deriveControl opcode funct) else none

end Sys2Proof.Machine

/-- R88, D15: the spec's own numbers for the ALU operations; internal to CORE and unobservable (assumption 12). -/
def Sys2Proof.AluOp.code : Sys2Proof.AluOp → BitVec 3
  | .and => 0
  | .or  => 1
  | .add => 2
  | .slt => 3
  | .xor => 4
end

