-- ==== Sys2Proof/Config.lean ====
section
/-! DEFINITION. The named parameters of 00_scope.md section 4 that a launch does not supply, and the values the model
gives to what the source leaves to the driver at reset. Every value here has its row in notes/assumptions. -/

namespace Sys2Proof

/-- The two readings of set-less-than in the overflow band (40_datapath_units.md R93, 90_conflicts.md C1). -/
inductive SltMode where
  /-- Bit 31 of the 32-bit difference. -/
  | wrapdiff
  /-- The true signed comparison. -/
  | signed
deriving DecidableEq, Repr

/-- 20_memory.md R34, D12: the packing of a word into bytes is outside CORE and no rule depends on it. -/
inductive ByteOrder where
  | littleEndian
  | bigEndian
deriving DecidableEq, Repr

/-- `REG0_HARDWIRED`, the spec's value (10_state.md R11, D2): register 0 is an ordinary register.
DESIGN CHOICE of the spec, unsafe: assumption 2. -/
def Config.reg0Hardwired : Bool := false

/-- `SLT_MODE`, the value 90_conflicts.md C1 resolves to (R93, D3). DESIGN CHOICE of the spec, unsafe inside the
overflow band: assumption 3. -/
def Config.sltMode : SltMode := .wrapdiff

/-- `HOST_BYTE_ORDER` of D12. DESIGN CHOICE, unobservable: assumption 4. -/
def Config.hostByteOrder : ByteOrder := .littleEndian

/-- 00_scope.md section 4: neither memory has more than 2^30 words. -/
def Config.maxWords : Nat := 2 ^ 30

/-- What a byte of memory that nothing has written reads as. R25 gives no value. DESIGN CHOICE, unsafe: assumption 5. -/
def Config.unwrittenByte : Byte := 0

/-- `RESET_PC`'s default (10_state.md R23, D11). DESIGN CHOICE of the spec, unsafe: assumption 8. -/
def Config.resetPc : Word := 0

/-- `X0[i]` of `State.reset`. R24 gives no value. DESIGN CHOICE, unsafe: assumption 8. -/
def Config.resetReg : Word := 0

/-- `IMEM_WORDS` of `State.reset`, open in R6 and D6. DESIGN CHOICE, unsafe: assumption 9. -/
def Config.resetImemWords : Nat := Config.maxWords

/-- `DMEM_WORDS` of `State.reset`, open in R6 and D6. DESIGN CHOICE, unsafe: assumption 9. -/
def Config.resetDmemWords : Nat := Config.maxWords

end Sys2Proof
end

