-- ==== Sys2Proof/Machine/Flags.lean ====
section
/-! DEFINITION. The ALU and its one flag, the zero flag (40_datapath_units.md section 6). There is no carry, overflow or
negative flag (10_state.md R16); the "unused auxiliary field" of the ALU result has no content and is left out (R99,
D20; assumption 12). -/

namespace Sys2Proof.Machine

/-- R92: what the ALU answers. The zero flag lives for the cycle and is stored nowhere (R16). -/
structure AluResult where
  result : Word
  zero   : Bool
deriving DecidableEq, Repr

/-- R98, first sentence: the zero flag of every operation but set-less-than. -/
def zeroFlag (result : Word) : Bool := result == 0

/-- R93: whether set-less-than reads `a` as less than `b`, under each reading of the overflow band. -/
def lessThan (mode : SltMode) (a b : Word) : Bool :=
  match mode with
  | .wrapdiff => (a - b).msb
  | .signed   => decide (a.toInt < b.toInt)

/-- R93: set-less-than gives its own zero flag. -/
def aluSlt (a b : Word) : AluResult :=
  if lessThan Config.sltMode a b then { result := 1, zero := false } else { result := 0, zero := true }

/-- R94: `AND`, and the shift when `Shift` is set. The amount is `uint(in2[4:0])` (D17, R100); it is the 5-bit field in
every cycle of CORE (R91). -/
def aluAnd (shift : Bool) (a b : Word) : Word :=
  if shift then a <<< (b.extractLsb' 0 5).toNat else a &&& b

/-- R97: `ADD`, subtracting when `bNegate` is set, modulo 2^32. -/
def aluAdd (bNegate : Bool) (a b : Word) : Word := if bNegate then a - b else a + b

/-- R92 to R98: the ALU. -/
def alu (op : AluOp) (bNegate shift : Bool) (a b : Word) : AluResult :=
  match op with
  | .and => { result := aluAnd shift a b, zero := zeroFlag (aluAnd shift a b) }
  | .or  => { result := a ||| b, zero := zeroFlag (a ||| b) }
  | .xor => { result := a ^^^ b, zero := zeroFlag (a ^^^ b) }
  | .add => { result := aluAdd bNegate a b, zero := zeroFlag (aluAdd bNegate a b) }
  | .slt => aluSlt a b

end Sys2Proof.Machine
end

