-- ==== Sys2Proof/Machine/Operands.lean ====
section
/-! DEFINITION. The Operand Selector (40_datapath_units.md section 5). CORE has no other operand form. -/

namespace Sys2Proof.Machine

/-- R89: ALU input 1. -/
def selectIn1 (c : ControlVector) (rsVal rtVal : Word) : Word := if c.shift then rtVal else rsVal

/-- R90: ALU input 2, its five clauses in priority order; the third is unreachable for a legal instruction and is kept
so that the unit is whole (90_conflicts.md C2). `ALUSrc` is not read (R106). -/
def selectIn2 (c : ControlVector) (f : Fields) (rtVal : Word) : Word :=
  if c.shift then zext32 f.shamt
  else if c.regDst || c.branch || c.jump then rtVal
  else if !c.regWrite && f.opcode != 43 then 0
  else if f.opcode == 12 then zext32 f.imm16
  else f.simm32

end Sys2Proof.Machine
end

