-- ==== Sys2Proof/Machine/State.lean ====
section
/-! DEFINITION. The state of CORE, why a step stops, and the state after reset.

10_state.md: "The whole persistent state of CORE is three things: the register file, the data memory and the program
counter. The instruction memory is read-only input." The instruction memory and the two sizes are launch parameters
(R6, R19, R181); they stand in `State` because a step reads them, and no step changes them. The zero flag, the fields,
the control vector and the ALU and memory results live for one cycle and are not state (R15, R16). There is no mode,
no status, cause or control register, and nothing that a fault writes (R17, R18, R21). -/

namespace Sys2Proof.Machine

/-- One of the two memories (R19, R20): `words` words from byte address 0 (R39), its bytes listed at rising addresses,
a byte that reads as `Config.unwrittenByte` unlisted. -/
structure Memory where
  /-- `IMEM_WORDS` or `DMEM_WORDS` (R6). -/
  words : Nat
  /-- The bytes that do not read as `Config.unwrittenByte`, keyed by byte address. -/
  cells : List Host.Cell
deriving DecidableEq, Repr

/-- What a cycle reads and writes (R21: "The outcome of a cycle is a function of (`pc`, `x`, `DMEM`, `IMEM`) alone"). -/
structure State where
  /-- R10: the 32 general registers `x[0]` to `x[31]`. -/
  x    : Vector Word 32
  /-- R13: the program counter, the byte address of the instruction being executed. -/
  pc   : Word
  /-- R19: the instruction memory, read by the Fetcher alone and written by no unit. -/
  imem : Memory
  /-- R20: the data memory, read by `lw` and written by `sw` alone. -/
  dmem : Memory
deriving DecidableEq, Repr

/-- The faults of a cycle (60_exceptions.md R166). In a faulting cycle nothing is written, so the state in which the
machine stops is the state the step was given (R161). -/
inductive Fault where
  /-- R160: raised by the Control Unit for a word that is not legal (R58), with the word and the `pc`. The source's own
  and only error; stopping there is D10's reading, safe. -/
  | illegalInstruction (instr pc : Word)
  /-- R162, D7: raised by the Fetcher when the word index of `pc` is not below `IMEM_WORDS`, which the source calls
  undefined. Safe. -/
  | fetchOutOfRange (pc : Word)
  /-- R163, D8: raised by the Memory Unit for a `lw` or `sw` whose word index is not below `DMEM_WORDS`, which the
  source never checks. Safe. -/
  | dataOutOfRange (ea pc : Word)
deriving DecidableEq, Repr

/-- Why there is no run at all. -/
inductive Refusal where
  /-- R164, D9: raised by a launch, and by a step, whose `pc` is not a multiple of 4. The source states the
  precondition and no consequence. Safe. -/
  | misalignedPc (pc : Word)
  /-- R183: raised by a launch whose memory sizes are outside the limits the spec names. Safe. -/
  | launchSizes (imemWords dmemWords : Nat)
  /-- Raised by `exec` for an instruction without a meaning; no instruction of this model is one. Safe. -/
  | notModelled (mnemonic : String)
deriving DecidableEq, Repr

/-- A memory of the given size in which nothing is listed. -/
def Memory.empty (words : Nat) : Memory := { words := words, cells := [] }

/-- The launch state (70_reset_and_hazards.md R180, R181) with every driver-supplied value at the model's choice: `pc`
at the default of R23; the registers, the sizes and the contents of the memories, for which the spec gives no value, at
those of Config.lean (assumptions 5, 8 and 9). -/
def State.reset : State where
  x    := Vector.replicate 32 Config.resetReg
  pc   := Config.resetPc
  imem := Memory.empty Config.resetImemWords
  dmem := Memory.empty Config.resetDmemWords

end Sys2Proof.Machine
end

