-- ==== Sys2Proof/Machine/Ops.lean ====
section
/-! DEFINITION. The operations on state: registers, bytes and words of memory, the Fetcher, the Memory Unit, the PC Unit
and the Writeback Unit (20_memory.md, 40_datapath_units.md R72, R101, R102, R103), and raising a fault. -/

namespace Sys2Proof.Machine

/-- What a step answers. -/
abbrev Result := Host.Outcome State Fault Refusal

/-! ## Raising a fault -/

/-- 60_exceptions.md R161, R169: CORE saves no state, switches no mode and transfers control nowhere; the fault goes to
the driver and nothing is written. This is all there is of taking an exception, and there is no return from one
(R170). -/
def raise {σ : Type} (r : Fault) : Host.Outcome σ Fault Refusal := .fault r

/-- R166: the codes the spec numbers the faults by; they have no existence in CORE. Code 0 is a completed cycle. -/
def Fault.code : Fault → Nat
  | .illegalInstruction _ _ => 1
  | .fetchOutOfRange _      => 2
  | .dataOutOfRange _ _     => 3

/-! ## Registers -/

/-- A read of `x[r]`. -/
def State.reg (s : State) (r : RegNum) : Word := s.x[r.toNat]'(r.isLt)

/-- A write of `x[r]`, register 0 like any other unless `REG0_HARDWIRED` (R11, D2). -/
def State.setReg (s : State) (r : RegNum) (v : Word) : State :=
  if Config.reg0Hardwired && r == 0 then s else { s with x := s.x.set r.toNat v r.isLt }

/-- The state after `pc <- t`. -/
def State.setPc (s : State) (t : Word) : State := { s with pc := t }

/-- The state with another data memory. -/
def State.setDmem (s : State) (m : Memory) : State := { s with dmem := m }

/-! ## Bytes of memory -/

/-- The byte at an address of a list of cells. -/
def Cells.read : List Host.Cell → Nat → Byte
  | [], _ => Config.unwrittenByte
  | (k, b) :: rest, a => if k = a then b else Cells.read rest a

/-- The cells after a byte is written, in the canonical form if they were in it. -/
def Cells.write : List Host.Cell → Nat → Byte → List Host.Cell
  | [], a, b => if b = Config.unwrittenByte then [] else [(a, b)]
  | (k, c) :: rest, a, b =>
    if k = a then (if b = Config.unwrittenByte then rest else (a, b) :: rest)
    else if a < k then (if b = Config.unwrittenByte then (k, c) :: rest else (a, b) :: (k, c) :: rest)
    else (k, c) :: Cells.write rest a b

/-- The canonical form: addresses from `lo` up to `hi` strictly rising, and no cell that holds what an unlisted address
reads as. -/
def Cells.canonical (lo hi : Nat) : List Host.Cell → Bool
  | [] => true
  | (k, b) :: rest => decide (lo ≤ k) && decide (k < hi) && b != Config.unwrittenByte && Cells.canonical (k + 1) hi rest

/-- A memory is in canonical form and lists no byte beyond its `4 * words` bytes (R39). -/
def Memory.wf (m : Memory) : Bool := Cells.canonical 0 (4 * m.words) m.cells

/-- The byte at a byte address. -/
def Memory.readByte (m : Memory) (a : Nat) : Byte := Cells.read m.cells a

/-! ## Words of memory (R30: the only access width)

The packing of a word into its four bytes is unobservable (R34, D12; assumption 4). -/

/-- Byte `i` of the four that hold a word. -/
def wordByte (o : ByteOrder) (v : Word) (i : Nat) : Byte :=
  match o with
  | .littleEndian => v.extractLsb' (8 * i) 8
  | .bigEndian    => v.extractLsb' (8 * (3 - i)) 8

/-- The word that four bytes hold, the first at the lowest address. -/
def wordOfBytes (o : ByteOrder) (b0 b1 b2 b3 : Byte) : Word :=
  match o with
  | .littleEndian => b3 ++ b2 ++ b1 ++ b0
  | .bigEndian    => b0 ++ b1 ++ b2 ++ b3

/-- The word at a word index. -/
def Memory.word (m : Memory) (k : Nat) : Word :=
  wordOfBytes Config.hostByteOrder (m.readByte (4 * k)) (m.readByte (4 * k + 1)) (m.readByte (4 * k + 2))
    (m.readByte (4 * k + 3))

/-- The memory after the whole word at a word index is replaced. -/
def Memory.setWord (m : Memory) (k : Nat) (v : Word) : Memory where
  words := m.words
  cells :=
    Cells.write
      (Cells.write
        (Cells.write
          (Cells.write m.cells (4 * k) (wordByte Config.hostByteOrder v 0))
          (4 * k + 1) (wordByte Config.hostByteOrder v 1))
        (4 * k + 2) (wordByte Config.hostByteOrder v 2))
      (4 * k + 3) (wordByte Config.hostByteOrder v 3)

/-- `uint(a) >> 2` (R31, R32, R33): the address is unsigned (D5; assumption 7) and its two low bits are dropped (R35). -/
def wordIndex (a : Word) : Nat := a.toNat / 4

/-- R31, R32: the word that holds byte address `a`, or `none` where its index is not below the size. -/
def Memory.load (m : Memory) (a : Word) : Option Word :=
  if wordIndex a < m.words then some (m.word (wordIndex a)) else none

/-- R33: the memory after the whole word that holds byte address `a` is replaced, or `none` where its index is not
below the size. -/
def Memory.store (m : Memory) (a v : Word) : Option Memory :=
  if wordIndex a < m.words then some (m.setWord (wordIndex a) v) else none

/-! ## Fetcher -/

/-- R36: the Fetcher's input "must be a multiple of 4". -/
def pcAligned (pc : Word) : Bool := pc.extractLsb' 0 2 == 0

/-- R72, `IFetch(pc)` of R31: the word at `pc`, or the fault of R162. -/
def fetchWord (s : State) : Host.Outcome Word Fault Refusal :=
  match s.imem.load s.pc with
  | some w => .next w
  | none   => raise (.fetchOutOfRange s.pc)

/-- The instruction a cycle is to execute: no cycle is attempted at a misaligned `pc` (R164), then the Fetcher (R162),
then the legality check (R160), in the order of R168. -/
def fetchInstr (s : State) : Host.Outcome Instr Fault Refusal :=
  if pcAligned s.pc then
    match fetchWord s with
    | .next w =>
      match decode w with
      | .ok i    => .next i
      | .error _ => raise (.illegalInstruction w s.pc)
    | .fault r   => .fault r
    | .refused r => .refused r
  else .refused (.misalignedPc s.pc)

/-- The state with the word `w` in the instruction memory where the Fetcher reads next, which is all a loader outside
CORE would have to set (R182): `IMEM` and, where they do not allow the fetch, `IMEM_WORDS` and the low bits of `pc`. -/
def fetchWordPlaced (s : State) (w : Word) : State :=
  { s with
    pc   := s.pc &&& 0xFFFFFFFC
    imem := Memory.setWord { s.imem with words := max s.imem.words (wordIndex s.pc + 1) } (wordIndex s.pc) w }

/-! ## Memory Unit -/

/-- What the Memory Unit leaves: the data memory and the read value. -/
structure MemoryResult where
  dmem : Memory
  data : Word
deriving DecidableEq, Repr

/-- R101, with `none` where R163's fault is raised. -/
def memoryUnit (c : ControlVector) (addr rtVal : Word) (dmem : Memory) : Option MemoryResult :=
  if c.memRead then
    match dmem.load addr with
    | some v => some { dmem := dmem, data := v }
    | none   => none
  else if c.memWrite then
    match dmem.store addr rtVal with
    | some m => some { dmem := m, data := 0 }
    | none   => none
  else some { dmem := dmem, data := 0 }

/-! ## PC Unit -/

/-- R56: the target of a taken branch, from the address of the branch itself. -/
def branchTarget (pc simm32 : Word) : Word := pc + 4#32 + (simm32 <<< 2)

/-- R57: the target of a jump, from the address of the jump itself (90_conflicts.md C6). -/
def jumpTarget (pc : Word) (addr : Addr26) : Word := (pc &&& 0xF0000000#32) ||| (zext32 addr <<< 2)

/-- R102: the next `pc`, from the old one. -/
def pcUnit (pc : Word) (f : Fields) (c : ControlVector) (zero : Bool) : Word :=
  if f.opcode == 4 && c.branch && zero then branchTarget pc f.simm32
  else if f.opcode == 5 && c.branch && !zero then branchTarget pc f.simm32
  else if c.jump then jumpTarget pc f.addr26
  else pc + 4

/-! ## Writeback Unit -/

/-- R103: the register number and the value of the register-file write port of R71, or `none` where no register is
written. -/
def writebackPort (c : ControlVector) (f : Fields) (res memData : Word) : Option (RegNum × Word) :=
  if c.memToReg then some (f.rt, memData)
  else if f.opcode == 2 || f.opcode == 4 || f.opcode == 5 then none
  else if !c.regDst && c.regWrite then some (f.rt, res)
  else if c.regWrite then some (f.rd, res)
  else none

/-- The state after at most one register is written. -/
def State.writeback (s : State) (port : Option (RegNum × Word)) : State :=
  match port with
  | some (r, v) => s.setReg r v
  | none        => s

end Sys2Proof.Machine
end

