-- ==== Sys2Proof/Machine/Datapath.lean ====
section
/-! DEFINITION. The units put together (40_datapath_units.md R70, R105). `runUnits` is the part of a cycle after the
Control Unit, and every instruction's meaning is one call of it; `cycle` is the whole of R105's `Step`, from the raw
word, and is what `step` is compared with. -/

namespace Sys2Proof.Machine

/-- The Operand Selector and the ALU on the start-of-cycle register values (R104). -/
def aluOutput (c : ControlVector) (f : Fields) (s : State) : AluResult :=
  alu c.aluOp c.bNegate c.shift (selectIn1 c (s.reg f.rs) (s.reg f.rt)) (selectIn2 c f (s.reg f.rt))

/-- R105 after the Control Unit: every read sees the start of the cycle, and register, memory and `pc` are written
together or not at all (R104, R161). -/
def runWith (c : ControlVector) (f : Fields) (s : State) : Result :=
  match memoryUnit c (aluOutput c f s).result (s.reg f.rt) s.dmem with
  | none   => raise (.dataOutOfRange (aluOutput c f s).result s.pc)
  | some m =>
    .next (((s.writeback (writebackPort c f (aluOutput c f s).result m.data)).setDmem m.dmem).setPc
      (pcUnit s.pc f c (aluOutput c f s).zero))

/-- The units run under the control vector of the fields' own codes (R87). -/
def runUnits (f : Fields) (s : State) : Result := runWith (deriveControl f.opcode f.funct) f s

/-- R105, transcribed whole: `Step` on the fetched word, with R164's launch premise before it. -/
def cycle (s : State) : Result :=
  if pcAligned s.pc then
    match s.imem.load s.pc with
    | none   => raise (.fetchOutOfRange s.pc)
    | some w =>
      match control (Fields.ofWord w).opcode (Fields.ofWord w).funct with
      | none   => raise (.illegalInstruction w s.pc)
      | some c => runWith c (Fields.ofWord w) s
  else .refused (.misalignedPc s.pc)

end Sys2Proof.Machine
end

