-- ==== Sys2Proof/Machine/ControlTransfer.lean ====
section
/-! DEFINITION. The branches and the jump (45_control_transfer.md): no delay slot and no annulment (R150). -/

namespace Sys2Proof.Machine

/-- R151: `if x[rs] = x[rt]: pc <- pc + 4 + (sext_32(imm16) << 2)` (the zero flag of `x[rs] - x[rt]` decides). -/
def execBeq (rs rt : RegNum) (imm : Imm16) (s : State) : Result := runUnits (.iType 4 rs rt imm) s

/-- R152: `if x[rs] != x[rt]: pc <- pc + 4 + (sext_32(imm16) << 2)` (the zero flag of `x[rs] - x[rt]` decides). -/
def execBne (rs rt : RegNum) (imm : Imm16) (s : State) : Result := runUnits (.iType 5 rs rt imm) s

/-- R153: `pc <- (pc & 0xF0000000) | (zext_32(addr26) << 2)`; the ALU runs and its result is discarded (C5). -/
def execJ (addr : Addr26) (s : State) : Result := runUnits (.jType 2 addr) s

end Sys2Proof.Machine
end

