-- ==== Sys2Proof/Machine/Immediate.lean ====
section
/-! DEFINITION. The immediate arithmetic and logic instructions (43_immediate.md); the destination is `rt`. -/

namespace Sys2Proof.Machine

/-- R135: `x[rt] <- x[rs] + sext_32(imm16)` (`ADD`). -/
def execAddi (rs rt : RegNum) (imm : Imm16) (s : State) : Result := runUnits (.iType 8 rs rt imm) s

/-- R136: `x[rt] <- x[rs] + sext_32(imm16)` (`ADD`; the immediate is sign-extended). -/
def execAddiu (rs rt : RegNum) (imm : Imm16) (s : State) : Result := runUnits (.iType 9 rs rt imm) s

/-- R137: `x[rt] <- zext_32((x[rs] - sext_32(imm16))[31])` (`SLT`; the overflow band follows `SLT_MODE`, assumption 3). -/
def execSlti (rs rt : RegNum) (imm : Imm16) (s : State) : Result := runUnits (.iType 10 rs rt imm) s

/-- R138: `x[rt] <- x[rs] & zext_32(imm16)` (`AND`; the only zero-extended immediate). -/
def execAndi (rs rt : RegNum) (imm : Imm16) (s : State) : Result := runUnits (.iType 12 rs rt imm) s

end Sys2Proof.Machine
end

