-- ==== Sys2Proof/Machine/LoadStore.lean ====
section
/-! DEFINITION. The load and the store (44_load_store.md). The address is `x[rs] + sext_32(imm16)`; no alignment is needed
(20_memory.md R35), and an index not below `DMEM_WORDS` faults with nothing written (R38, R163). -/

namespace Sys2Proof.Machine

/-- R145: `x[rt] <- DMEM[uint(ea) >> 2]` (the whole word). -/
def execLw (rs rt : RegNum) (imm : Imm16) (s : State) : Result := runUnits (.iType 35 rs rt imm) s

/-- R146: `DMEM[uint(ea) >> 2] <- x[rt]` (the whole word; no register is written). -/
def execSw (rs rt : RegNum) (imm : Imm16) (s : State) : Result := runUnits (.iType 43 rs rt imm) s

end Sys2Proof.Machine
end

