-- ==== Sys2Proof/Machine/RType.lean ====
section
/-! DEFINITION. The R-type arithmetic and logic instructions (41_rtype_alu.md). Each is the units of 40_datapath_units.md run on
its own fields; `shamt` is ignored (30_encoding.md R59). -/

namespace Sys2Proof.Machine

/-- R120: `x[rd] <- x[rs] + x[rt]` (`ADD`). -/
def execAdd (rs rt rd : RegNum) (shamt : Shamt) (s : State) : Result := runUnits (.rType rs rt rd shamt 32) s

/-- R121: `x[rd] <- x[rs] + x[rt]` (`ADD`, the control vector of `add`). -/
def execAddu (rs rt rd : RegNum) (shamt : Shamt) (s : State) : Result := runUnits (.rType rs rt rd shamt 33) s

/-- R122: `x[rd] <- x[rs] - x[rt]` (`ADD` with `bNegate`). -/
def execSub (rs rt rd : RegNum) (shamt : Shamt) (s : State) : Result := runUnits (.rType rs rt rd shamt 34) s

/-- R123: `x[rd] <- x[rs] - x[rt]` (`ADD` with `bNegate`, the control vector of `sub`). -/
def execSubu (rs rt rd : RegNum) (shamt : Shamt) (s : State) : Result := runUnits (.rType rs rt rd shamt 35) s

/-- R124: `x[rd] <- x[rs] & x[rt]` (`AND`). -/
def execAnd (rs rt rd : RegNum) (shamt : Shamt) (s : State) : Result := runUnits (.rType rs rt rd shamt 36) s

/-- R125: `x[rd] <- x[rs] | x[rt]` (`OR`). -/
def execOr (rs rt rd : RegNum) (shamt : Shamt) (s : State) : Result := runUnits (.rType rs rt rd shamt 37) s

/-- R126: `x[rd] <- x[rs] ^ x[rt]` (`XOR`). -/
def execXor (rs rt rd : RegNum) (shamt : Shamt) (s : State) : Result := runUnits (.rType rs rt rd shamt 38) s

/-- R127: `x[rd] <- zext_32((x[rs] - x[rt])[31])` (`SLT`; the overflow band follows `SLT_MODE`, assumption 3). -/
def execSlt (rs rt rd : RegNum) (shamt : Shamt) (s : State) : Result := runUnits (.rType rs rt rd shamt 42) s

end Sys2Proof.Machine
end

