-- ==== Sys2Proof/Machine/Shift.lean ====
section
/-! DEFINITION. The shift instruction (42_shift.md). -/

namespace Sys2Proof.Machine

/-- R130: `x[rd] <- x[rt] << uint(shamt)` (`AND` with `Shift`); `rs` is ignored (R59). -/
def execSll (rs rt rd : RegNum) (shamt : Shamt) (s : State) : Result := runUnits (.rType rs rt rd shamt 0) s

end Sys2Proof.Machine
end

