-- ==== Sys2Proof/Machine/Step.lean ====
section
/-! DEFINITION. One step is one cycle (70_reset_and_hazards.md R188), and where the next instruction is fetched from. -/

namespace Sys2Proof.Machine

/-- Fetch, decode, execute (40_datapath_units.md R105). -/
def step (s : State) : Host.Outcome State Fault Refusal :=
  match fetchInstr s with
  | .next i    => exec i s
  | .fault r   => .fault r
  | .refused r => .refused r

/-- The state with an instruction placed where `step` fetches next. Programs are loaded from outside CORE (R4, R182);
this stands for that load of one word (assumption 10). The `pc` is made a multiple of 4 and `IMEM_WORDS` large enough
where they are not, since the fetch needs both. -/
def State.withFetchWord (s : State) (nbits w : Nat) : State :=
  fetchWordPlaced s (BitVec.ofNat 32 (w % 2 ^ nbits))

end Sys2Proof.Machine
end

