-- ==== Sys2Proof/Machine/Launch.lean ====
section
/-! DEFINITION. The launch (70_reset_and_hazards.md R180 to R183): what the driver supplies before the first cycle, and
the state it makes. `State.reset` is the launch `Launch.default`. -/

namespace Sys2Proof.Machine

/-- R181: the launch state's parts. The words of a memory after those listed are left unwritten. -/
structure Launch where
  /-- `IMEM_WORDS`. -/
  imemWords : Nat
  /-- `DMEM_WORDS`. -/
  dmemWords : Nat
  /-- `IMEM[0]`, `IMEM[1]`, … -/
  image     : List Word
  /-- `DMEM0[0]`, `DMEM0[1]`, … -/
  data      : List Word
  /-- `X0`. -/
  x0        : Vector Word 32
  /-- `RESET_PC`. -/
  resetPc   : Word
deriving DecidableEq, Repr

/-- The model's choice for every launch parameter the spec leaves open (assumptions 5, 8 and 9); no program. -/
def Launch.default : Launch where
  imemWords := Config.resetImemWords
  dmemWords := Config.resetDmemWords
  image     := []
  data      := []
  x0        := Vector.replicate 32 Config.resetReg
  resetPc   := Config.resetPc

/-- R182 (2), (3): consecutive words written from a word index on. -/
def Memory.fill (m : Memory) (k : Nat) : List Word → Memory
  | []      => m
  | w :: ws => Memory.fill (m.setWord k w) (k + 1) ws

/-- R183: the limits on the sizes, and that what is listed fits. -/
def Launch.sizesOk (l : Launch) : Bool :=
  decide (1 ≤ l.imemWords) && decide (l.imemWords ≤ Config.maxWords) && decide (l.dmemWords ≤ Config.maxWords) &&
    decide (l.image.length ≤ l.imemWords) && decide (l.data.length ≤ l.dmemWords)

/-- D2: with `REG0_HARDWIRED` the launch has `X0[0] = 0`. -/
def Launch.registers (l : Launch) : Vector Word 32 :=
  if Config.reg0Hardwired then l.x0.set 0 0 else l.x0

/-- R180, R181: the state in which the first cycle begins; a misaligned `RESET_PC` (R164) and sizes outside R183's
limits give no run at all. -/
def launch (l : Launch) : Result :=
  if !pcAligned l.resetPc then .refused (.misalignedPc l.resetPc)
  else if !l.sizesOk then .refused (.launchSizes l.imemWords l.dmemWords)
  else
    .next {
      x    := l.registers
      pc   := l.resetPc
      imem := Memory.fill (Memory.empty l.imemWords) 0 l.image
      dmem := Memory.fill (Memory.empty l.dmemWords) 0 l.data }

end Sys2Proof.Machine
end

