-- ==== Sys2Proof/Safety.lean ====
section
/-! DEFINITION. The words statements are made in: the invariant, what the rules say each instruction writes, and how a
run ends (70_reset_and_hazards.md R184). -/

namespace Sys2Proof

/-- The register an instruction writes, as the table of 10_state.md R10 has it. -/
def Instr.dest : Instr → Option RegNum
  | .sll _ _ rd _ | .add _ _ rd _ | .addu _ _ rd _ | .sub _ _ rd _ | .subu _ _ rd _ => some rd
  | .and _ _ rd _ | .or _ _ rd _ | .xor _ _ rd _ | .slt _ _ rd _ => some rd
  | .addi _ rt _ | .addiu _ rt _ | .slti _ rt _ | .andi _ rt _ | .lw _ rt _ => some rt
  | .sw _ _ _ | .beq _ _ _ | .bne _ _ _ | .j _ => none

end Sys2Proof

namespace Sys2Proof.Machine

/-- `pc` is a multiple of 4 (10_state.md R14), the memories are in canonical form, and their sizes are within R183's
limits. -/
abbrev State.Inv (s : State) : Prop :=
  s.pc.toNat % 4 = 0 ∧ s.imem.wf = true ∧ s.dmem.wf = true ∧
    1 ≤ s.imem.words ∧ s.imem.words ≤ Config.maxWords ∧ s.dmem.words ≤ Config.maxWords

/-- The effective address of `lw` and `sw`: "base register plus sign-extended 16-bit displacement" (44_load_store.md). -/
def State.effectiveAddress (s : State) (base : RegNum) (imm : Imm16) : Word := s.reg base + sext32 imm

/-- How a run ends (R184), each with the state at its end. After a fault the run is over and the state is the one in
which the faulting cycle began (R161). -/
inductive RunEnd where
  /-- The stop policy was met. -/
  | normal (s : State)
  /-- A cycle faulted; never a normal end. -/
  | faulted (r : Fault) (s : State)
  /-- There is no run from here. -/
  | refused (r : Refusal) (s : State)
  /-- `HALT_PC` was not reached within the cycles allowed. -/
  | unfinished (s : State)
deriving DecidableEq, Repr

/-- R184, `N_CYCLES = n`: the run ends normally after exactly `n` completed cycles. -/
def runCycles : Nat → State → RunEnd
  | 0, s => .normal s
  | n + 1, s =>
    match step s with
    | .next t    => runCycles n t
    | .fault r   => .faulted r s
    | .refused r => .refused r s

/-- R184, `HALT_PC = h`: the run ends normally, before fetching, at the first cycle boundary where `pc = h`; looked for
over at most the given number of cycles. -/
def runToHalt (h : Word) : Nat → State → RunEnd
  | 0, s => if s.pc = h then .normal s else .unfinished s
  | n + 1, s =>
    if s.pc = h then .normal s
    else
      match step s with
      | .next t    => runToHalt h n t
      | .fault r   => .faulted r s
      | .refused r => .refused r s

end Sys2Proof.Machine
end

