-- ==== Sys2Proof/WellFormed.lean ====
section
/-! DEFINITION. The checks on the data of Syntax.lean.

The widths of an instruction's fields are in its type, so no `Instr` can be ill formed (10_state.md R10: a register
index is "always 0–31 ... by construction of fixed-width fields"); what can be ill formed is a bundle of decoder fields
that are not slices of one word (R51), an illegal (opcode, function code) pair (R58, `legalPair`), and a control vector
with two conflicting signals (40_datapath_units.md R44, R86). -/

namespace Sys2Proof

/-- R51: "all fields are pure bit-slices of the same instruction". -/
def Fields.wellFormed (f : Fields) : Bool :=
  f.imm16 == f.rd ++ f.shamt ++ f.funct && f.simm32 == f.imm16.signExtend 32 && f.addr26 == f.rs ++ f.rt ++ f.imm16

/-- The facts "visible in the table" of R86; the first is also 20_memory.md R44's "never both". -/
def ControlVector.wellFormed (c : ControlVector) : Bool :=
  !(c.memRead && c.memWrite) && !(c.branch && c.jump) && (!c.memToReg || c.regWrite) &&
    !((c.branch || c.jump) && c.regWrite)

/-- An instruction's fields are slices of one word and its codes are a legal pair. -/
def Instr.wellFormed (i : Instr) : Bool :=
  i.fields.wellFormed && legalPair i.fields.opcode i.fields.funct

end Sys2Proof
end

