-- ==== Sys2Proof/Certificates/Slice0/Obligations.lean ====
section
/-! DEFINITION. What is claimed of the model. Each statement's docstring names the rules of spec/ it formalises.

Word arithmetic is modulo 2^32 throughout: the notation of 00_scope.md section 5 and the pseudocode of files 41 to 45
say so; R12 marks that reading as decision D4 (assumption 6). Register 0 is written and read like any other: DOC's
"writing register 0 is not specially suppressed by this unit" (R103), `REG0_HARDWIRED = false` (R11, D2, assumption 2).
An equation whose right side is `.next { s with … }` says the whole next state, so it is also the instruction's
completion and its frame. -/

open Sys2Proof Sys2Proof.Machine

/-! ## Encoding -/

/-- Sample words, written out from 30_encoding.md R52, R53, R54, R60, R61, decode to their instructions, one for each
family, and three of 95_test_vectors.md section 2.1 are refused. The positions are the spec's from general knowledge
(D1; assumption 1). -/
def Obligations.WrittenOutWordsDecode : Prop :=
  decode 0b000000_00001_00010_00011_00000_100000#32 = .ok (.add 1 2 3 0) ∧
  decode 0b000000_11111_00010_00011_00100_000000#32 = .ok (.sll 31 2 3 4) ∧
  decode 0b001100_00001_00011_1000000000000111#32 = .ok (.andi 1 3 0x8007) ∧
  decode 0b100011_01000_01001_1111111111111000#32 = .ok (.lw 8 9 0xFFF8) ∧
  decode 0b101011_00001_00010_0000000000001100#32 = .ok (.sw 1 2 0x000C) ∧
  decode 0b000101_00101_00000_1111111111111110#32 = .ok (.bne 5 0 0xFFFE) ∧
  decode 0b000010_00000000000000000000010000#32 = .ok (.j 0x10) ∧
  decode 0xFFFFFFFF = .error (.illegalOpcode 63) ∧
  decode 0x04000000 = .error (.illegalOpcode 1) ∧
  decode 0x00000027 = .error (.illegalFunct 39)

/-- Every instruction, with every value of every field (ignored fields included), is read back from its word. -/
def Obligations.DecodeOfEncodeIsIdentity : Prop :=
  ∀ i : Instr, decode (encode i) = .ok i

/-- A legal word is the word of the instruction it decodes to: the decoder drops no bit. -/
def Obligations.EncodeOfDecodeIsIdentity : Prop :=
  ∀ (w : Word) (i : Instr), decode w = .ok i → encode i = w

/-- The match and mask columns of R60 and R61 select the instructions they stand beside. -/
def Obligations.MatchAndMaskSelectInstruction : Prop :=
  ∀ w : Word,
    let f := Fields.ofWord w
    (w &&& 0xFC00003F = 0x00000000 → decode w = .ok (.sll f.rs f.rt f.rd f.shamt)) ∧
    (w &&& 0xFC00003F = 0x00000020 → decode w = .ok (.add f.rs f.rt f.rd f.shamt)) ∧
    (w &&& 0xFC00003F = 0x00000021 → decode w = .ok (.addu f.rs f.rt f.rd f.shamt)) ∧
    (w &&& 0xFC00003F = 0x00000022 → decode w = .ok (.sub f.rs f.rt f.rd f.shamt)) ∧
    (w &&& 0xFC00003F = 0x00000023 → decode w = .ok (.subu f.rs f.rt f.rd f.shamt)) ∧
    (w &&& 0xFC00003F = 0x00000024 → decode w = .ok (.and f.rs f.rt f.rd f.shamt)) ∧
    (w &&& 0xFC00003F = 0x00000025 → decode w = .ok (.or f.rs f.rt f.rd f.shamt)) ∧
    (w &&& 0xFC00003F = 0x00000026 → decode w = .ok (.xor f.rs f.rt f.rd f.shamt)) ∧
    (w &&& 0xFC00003F = 0x0000002A → decode w = .ok (.slt f.rs f.rt f.rd f.shamt)) ∧
    (w &&& 0xFC000000 = 0x08000000 → decode w = .ok (.j f.addr26)) ∧
    (w &&& 0xFC000000 = 0x10000000 → decode w = .ok (.beq f.rs f.rt f.imm16)) ∧
    (w &&& 0xFC000000 = 0x14000000 → decode w = .ok (.bne f.rs f.rt f.imm16)) ∧
    (w &&& 0xFC000000 = 0x20000000 → decode w = .ok (.addi f.rs f.rt f.imm16)) ∧
    (w &&& 0xFC000000 = 0x24000000 → decode w = .ok (.addiu f.rs f.rt f.imm16)) ∧
    (w &&& 0xFC000000 = 0x28000000 → decode w = .ok (.slti f.rs f.rt f.imm16)) ∧
    (w &&& 0xFC000000 = 0x30000000 → decode w = .ok (.andi f.rs f.rt f.imm16)) ∧
    (w &&& 0xFC000000 = 0x8C000000 → decode w = .ok (.lw f.rs f.rt f.imm16)) ∧
    (w &&& 0xFC000000 = 0xAC000000 → decode w = .ok (.sw f.rs f.rt f.imm16))

/-- R58: the decoder reads a word exactly when its codes are among those listed. -/
def Obligations.DecodesExactlyTheLegalWords : Prop :=
  ∀ w : Word,
    let f := Fields.ofWord w
    (∃ i, decode w = .ok i) ↔
      f.opcode ∈ [2#6, 4#6, 5#6, 8#6, 9#6, 10#6, 12#6, 35#6, 43#6] ∨
      (f.opcode = 0 ∧ f.funct ∈ [0#6, 32#6, 33#6, 34#6, 35#6, 36#6, 37#6, 38#6, 42#6])

/-- R51's overlaps: the immediate covers `rd`, `shamt` and `funct`, the address field everything but the opcode, and the
word is its opcode and its address field. -/
def Obligations.FieldsAreSlicesOfTheWord : Prop :=
  ∀ w : Word, (Fields.ofWord w).wellFormed = true ∧ w = (Fields.ofWord w).opcode ++ (Fields.ofWord w).addr26

/-- R59: words that differ only in an ignored field are both refused or both decode, to instructions that behave
identically. -/
def Obligations.IgnoredFieldsChangeNothing : Prop :=
  ∀ (w w' : Word) (i : Instr),
    (Fields.ofWord w).opcode = 0 → (Fields.ofWord w').opcode = 0 →
    (Fields.ofWord w).funct = (Fields.ofWord w').funct →
    (Fields.ofWord w).rt = (Fields.ofWord w').rt → (Fields.ofWord w).rd = (Fields.ofWord w').rd →
    ((Fields.ofWord w).funct = 0 → (Fields.ofWord w).shamt = (Fields.ofWord w').shamt) →
    ((Fields.ofWord w).funct ≠ 0 → (Fields.ofWord w).rs = (Fields.ofWord w').rs) →
    decode w = .ok i → ∃ i', decode w' = .ok i' ∧ ∀ s, exec i' s = exec i s

/-! ## Control Unit -/

/-- R76 to R85: each signal of a legal pair's control vector. -/
def Obligations.ControlSignalsFollowTheirRules : Prop :=
  ∀ (opcode funct : Code6) (c : ControlVector), control opcode funct = some c →
    (c.shift = true ↔ opcode = 0 ∧ funct = 0) ∧
    (c.aluSrc = true ↔ opcode ∈ [8#6, 9#6, 10#6, 12#6, 35#6, 43#6]) ∧
    (c.aluSrc = true ↔ 5 < opcode.toNat) ∧
    (c.aluOp = .slt ↔ (opcode = 0 ∧ funct = 42) ∨ opcode = 10) ∧
    (c.aluOp = .and ↔ (opcode = 0 ∧ funct = 36) ∨ opcode = 2 ∨ opcode = 12 ∨ (opcode = 0 ∧ funct = 0)) ∧
    (c.aluOp = .or ↔ opcode = 0 ∧ funct = 37) ∧
    (c.aluOp = .xor ↔ opcode = 0 ∧ funct = 38) ∧
    (c.bNegate = true ↔ opcode ∈ [4#6, 5#6, 10#6] ∨ (opcode = 0 ∧ funct ∈ [34#6, 35#6, 42#6])) ∧
    (c.branch = true ↔ opcode = 4 ∨ opcode = 5) ∧
    (c.memRead = true ↔ opcode = 35) ∧ (c.memToReg = true ↔ opcode = 35) ∧
    (c.memWrite = true ↔ opcode = 43) ∧
    (c.jump = true ↔ opcode = 2) ∧
    (c.regDst = true ↔ opcode = 0) ∧
    (c.regWrite = true ↔ opcode = 0 ∨ opcode ∈ [8#6, 9#6, 10#6, 35#6, 12#6])

/-- R74: the Control Unit has no vector exactly for the pairs that are not legal by R58, and then no other unit runs: the
cycle is the illegal-instruction fault, with nothing written. -/
def Obligations.ControlFailsExactlyOnIllegalPairs : Prop :=
  (∀ opcode funct : Code6, control opcode funct = none ↔
    ¬ (opcode ∈ [2#6, 4#6, 5#6, 8#6, 9#6, 10#6, 12#6, 35#6, 43#6] ∨
      (opcode = 0 ∧ funct ∈ [0#6, 32#6, 33#6, 34#6, 35#6, 36#6, 37#6, 38#6, 42#6]))) ∧
  (∀ (s : State) (w : Word), s.pc.toNat % 4 = 0 → s.imem.load s.pc = some w →
    control (Fields.ofWord w).opcode (Fields.ofWord w).funct = none →
    ∃ instr pc, step s = .fault (.illegalInstruction instr pc))

/-- The facts "visible in the table" of R86, the first of them R44's. -/
def Obligations.ControlSignalsNeverConflict : Prop :=
  ∀ (opcode funct : Code6) (c : ControlVector), control opcode funct = some c →
    ¬ (c.memRead = true ∧ c.memWrite = true) ∧ ¬ (c.branch = true ∧ c.jump = true) ∧
    (c.memToReg = true → c.regWrite = true) ∧ (c.branch = true ∨ c.jump = true → c.regWrite = false)

/-! ## Operand Selector, ALU, Writeback Unit -/

/-- R106 with R90: for a legal instruction other than the shift, ALU input 2 is an immediate form exactly when `ALUSrc`
is set, zero-extended for `andi` alone; so the literal 0 of R90's clause (3) is never chosen (90_conflicts.md C2). -/
def Obligations.OperandTwoIsImmediateExactlyUnderAluSrc : Prop :=
  ∀ (f : Fields) (c : ControlVector) (rtVal : Word), control f.opcode f.funct = some c → c.shift = false →
    (c.aluSrc = true → selectIn2 c f rtVal = if f.opcode = 12 then zext32 f.imm16 else f.simm32) ∧
    (c.aluSrc = false → selectIn2 c f rtVal = rtVal)

/-- R98 with R93: for every operation the zero flag says that the result is zero. On the inputs the Control Unit never
produces (R100) this is the spec's decision D17 (assumption 18). -/
def Obligations.ZeroFlagSaysResultIsZero : Prop :=
  ∀ (op : AluOp) (bNegate shift : Bool) (a b : Word),
    (alu op bNegate shift a b).zero = true ↔ (alu op bNegate shift a b).result = 0

/-- R93 under `SLT_MODE = wrapdiff` (the spec's decision D3; assumption 3): set-less-than is the signed comparison when
the exact difference fits in 32 signed bits and its opposite in the overflow band. No cycle presents `bNegate = 0` or
`Shift = 1` with this operation (R100); that the result is the same there is the spec's decision D17 (assumption 18). -/
def Obligations.SltIsSignedOutsideTheBand : Prop :=
  ∀ (bNegate shift : Bool) (a b : Word),
    (-2 ^ 31 ≤ a.toInt - b.toInt ∧ a.toInt - b.toInt ≤ 2 ^ 31 - 1 →
      (alu .slt bNegate shift a b).result = if a.toInt < b.toInt then 1 else 0) ∧
    (a.toInt - b.toInt < -2 ^ 31 ∨ 2 ^ 31 - 1 < a.toInt - b.toInt →
      (alu .slt bNegate shift a b).result = if a.toInt < b.toInt then 0 else 1)

/-- R103's last sentence: for legal instructions the Writeback Unit is one write port. -/
def Obligations.WritebackIsOneWritePort : Prop :=
  ∀ (f : Fields) (c : ControlVector) (res memData : Word), control f.opcode f.funct = some c →
    writebackPort c f res memData =
      if c.regWrite then some (if c.regDst then f.rd else f.rt, if c.memToReg then memData else res) else none

/-- R10, R11: a register holds the word last written to it, register 0 like any other (D2; assumption 2), and a write
changes no other register. -/
def Obligations.RegisterReadsWhatWasWritten : Prop :=
  ∀ (s : State) (r r' : RegNum) (v : Word), (s.setReg r v).reg r' = if r' = r then v else s.reg r'

/-! ## Each instruction's effect -/

/-- The operation of R120 and R121, modulo 2^32 (the spec's decision D4; assumption 6). -/
def Obligations.AddWritesSum : Prop :=
  ∀ (rs rt rd : RegNum) (shamt : Shamt) (s : State),
    exec (.add rs rt rd shamt) s =
      .next { s with x := s.x.set rd.toNat (s.reg rs + s.reg rt) rd.isLt, pc := s.pc + 4 } ∧
    exec (.addu rs rt rd shamt) s =
      .next { s with x := s.x.set rd.toNat (s.reg rs + s.reg rt) rd.isLt, pc := s.pc + 4 }

/-- The operation of R122 and R123, modulo 2^32 (the spec's decision D4; assumption 6). -/
def Obligations.SubWritesDifference : Prop :=
  ∀ (rs rt rd : RegNum) (shamt : Shamt) (s : State),
    exec (.sub rs rt rd shamt) s =
      .next { s with x := s.x.set rd.toNat (s.reg rs - s.reg rt) rd.isLt, pc := s.pc + 4 } ∧
    exec (.subu rs rt rd shamt) s =
      .next { s with x := s.x.set rd.toNat (s.reg rs - s.reg rt) rd.isLt, pc := s.pc + 4 }

/-- The operation of R124, R125 and R126. -/
def Obligations.BitwiseInstructionsWriteResult : Prop :=
  ∀ (rs rt rd : RegNum) (shamt : Shamt) (s : State),
    exec (.and rs rt rd shamt) s =
      .next { s with x := s.x.set rd.toNat (s.reg rs &&& s.reg rt) rd.isLt, pc := s.pc + 4 } ∧
    exec (.or rs rt rd shamt) s =
      .next { s with x := s.x.set rd.toNat (s.reg rs ||| s.reg rt) rd.isLt, pc := s.pc + 4 } ∧
    exec (.xor rs rt rd shamt) s =
      .next { s with x := s.x.set rd.toNat (s.reg rs ^^^ s.reg rt) rd.isLt, pc := s.pc + 4 }

/-- R127 and R137 under `SLT_MODE = wrapdiff` (the spec's decision D3; assumption 3): bit 31 of the 32-bit difference,
zero-extended. -/
def Obligations.SltWritesSignOfDifference : Prop :=
  ∀ (rs rt rd : RegNum) (shamt : Shamt) (imm : Imm16) (s : State),
    exec (.slt rs rt rd shamt) s =
      .next { s with
        x := s.x.set rd.toNat (zext32 ((s.reg rs - s.reg rt).extractLsb' 31 1)) rd.isLt, pc := s.pc + 4 } ∧
    exec (.slti rs rt imm) s =
      .next { s with
        x := s.x.set rt.toNat (zext32 ((s.reg rs - imm.signExtend 32).extractLsb' 31 1)) rt.isLt, pc := s.pc + 4 }

/-- R130: the shifted word is the low 32 bits of `x[rt] * 2^shamt`. -/
def Obligations.SllShiftsLeft : Prop :=
  ∀ (rs rt rd : RegNum) (shamt : Shamt) (s : State),
    exec (.sll rs rt rd shamt) s =
      .next { s with
        x := s.x.set rd.toNat (BitVec.ofNat 32 ((s.reg rt).toNat * 2 ^ shamt.toNat)) rd.isLt, pc := s.pc + 4 }

/-- The operation of R135 and R136: both sign-extend; the sum is modulo 2^32 (the spec's decision D4; assumption 6). -/
def Obligations.AddImmediateWritesSum : Prop :=
  ∀ (rs rt : RegNum) (imm : Imm16) (s : State),
    exec (.addi rs rt imm) s =
      .next { s with x := s.x.set rt.toNat (s.reg rs + imm.signExtend 32) rt.isLt, pc := s.pc + 4 } ∧
    exec (.addiu rs rt imm) s =
      .next { s with x := s.x.set rt.toNat (s.reg rs + imm.signExtend 32) rt.isLt, pc := s.pc + 4 }

/-- R138: the immediate is zero-extended, so bits 31 to 16 of the result are 0. -/
def Obligations.AndiWritesMaskedLowHalf : Prop :=
  ∀ (rs rt : RegNum) (imm : Imm16) (s : State),
    exec (.andi rs rt imm) s =
      .next { s with
        x := s.x.set rt.toNat (0#16 ++ ((s.reg rs).extractLsb' 0 16 &&& imm)) rt.isLt, pc := s.pc + 4 }

/-- The operation of R145 where the word index is below `DMEM_WORDS`. The bound and the unsigned division of the address
are the spec's decisions D8 and D5 (assumptions 11 and 7). -/
def Obligations.LwLoadsTheWord : Prop :=
  ∀ (rs rt : RegNum) (imm : Imm16) (s : State),
    (s.reg rs + imm.signExtend 32).toNat / 4 < s.dmem.words →
    exec (.lw rs rt imm) s =
      .next { s with
        x := s.x.set rt.toNat (s.dmem.word ((s.reg rs + imm.signExtend 32).toNat / 4)) rt.isLt, pc := s.pc + 4 }

/-- The operation of R146 where the word index is below `DMEM_WORDS` (decisions D8 and D5, assumptions 11 and 7); what a
replaced word reads as is `WordReadsWhatWasStored`. -/
def Obligations.SwStoresTheWord : Prop :=
  ∀ (rs rt : RegNum) (imm : Imm16) (s : State),
    (s.reg rs + imm.signExtend 32).toNat / 4 < s.dmem.words →
    exec (.sw rs rt imm) s =
      .next { s with
        dmem := s.dmem.setWord ((s.reg rs + imm.signExtend 32).toNat / 4) (s.reg rt), pc := s.pc + 4 }

/-- R38, R163 (the spec's decision D8; assumption 11): a load or store whose word index is not below `DMEM_WORDS` faults,
with the effective address and the `pc`. -/
def Obligations.DataAccessOutOfRangeFaults : Prop :=
  ∀ (rs rt : RegNum) (imm : Imm16) (s : State),
    s.dmem.words ≤ (s.reg rs + imm.signExtend 32).toNat / 4 →
    exec (.lw rs rt imm) s = .fault (.dataOutOfRange (s.reg rs + imm.signExtend 32) s.pc) ∧
    exec (.sw rs rt imm) s = .fault (.dataOutOfRange (s.reg rs + imm.signExtend 32) s.pc)

/-- The operation of R151 and R152; the sums are modulo 2^32 (the spec's decision D4; assumption 6). -/
def Obligations.BranchesGoByEquality : Prop :=
  ∀ (rs rt : RegNum) (imm : Imm16) (s : State),
    exec (.beq rs rt imm) s =
      .next { s with pc := if s.reg rs = s.reg rt then s.pc + 4#32 + (imm.signExtend 32 <<< 2) else s.pc + 4 } ∧
    exec (.bne rs rt imm) s =
      .next { s with pc := if s.reg rs ≠ s.reg rt then s.pc + 4#32 + (imm.signExtend 32 <<< 2) else s.pc + 4 }

/-- R153, R57: `pc[31:28] ++ addr26 ++ 0b00`, the high bits from the jump's own address. -/
def Obligations.JumpReplacesLowBitsOfPc : Prop :=
  ∀ (addr : Addr26) (s : State),
    exec (.j addr) s = .next { s with pc := s.pc.extractLsb' 28 4 ++ addr ++ 0#2 }

/-- R56: the immediate counts instructions from the one after the branch, and the shift loses nothing: the target is the
exact signed sum, modulo 2^32 (the spec's decision D4; assumption 6). -/
def Obligations.BranchTargetIsExactSum : Prop :=
  ∀ (pc : Word) (imm : Imm16),
    branchTarget pc (sext32 imm) = BitVec.ofInt 32 (pc.toNat + 4 + 4 * imm.toInt) ∧
    -32768 ≤ imm.toInt ∧ imm.toInt ≤ 32767

/-! ## Frames and whole-instruction rules -/

/-- The registers read and written column of R10's table, as a frame: an instruction that completes changes no register
but its destination, changes no byte of data memory unless it is `sw`, and changes neither the instruction memory nor
the size of the data memory. CORE has no flag and no other register. -/
def Obligations.InstructionFrame : Prop :=
  ∀ (i : Instr) (s t : State), exec i s = .next t →
    (∀ r : RegNum, i.dest ≠ some r → t.reg r = s.reg r) ∧
    ((∀ rs rt imm, i ≠ .sw rs rt imm) → ∀ a : Nat, t.dmem.readByte a = s.dmem.readByte a) ∧
    t.imem = s.imem ∧ t.dmem.words = s.dmem.words

/-- The frame of `sw`: every register and every byte outside the word that holds its effective address (R35, R146). Which
word that is rests, from byte address 0x80000000 on, on the unsigned division of the address (the spec's decision D5;
assumption 7). -/
def Obligations.SwFrame : Prop :=
  ∀ (rs rt : RegNum) (imm : Imm16) (s t : State) (ea : Word), exec (.sw rs rt imm) s = .next t →
    s.effectiveAddress rs imm = ea →
    (∀ b : Nat, b < 4 * (ea.toNat / 4) ∨ 4 * (ea.toNat / 4) + 4 ≤ b → t.dmem.readByte b = s.dmem.readByte b) ∧
    (∀ r : RegNum, t.reg r = s.reg r)

/-- R102 with R13: the next `pc` of every instruction that completes, from the old one; the sums are modulo 2^32 (the
spec's decision D4; assumption 6). -/
def Obligations.NextPcOfEveryInstruction : Prop :=
  ∀ (i : Instr) (s t : State), exec i s = .next t →
    t.pc =
      match i with
      | .beq rs rt imm => if s.reg rs = s.reg rt then s.pc + 4#32 + (imm.signExtend 32 <<< 2) else s.pc + 4
      | .bne rs rt imm => if s.reg rs = s.reg rt then s.pc + 4 else s.pc + 4#32 + (imm.signExtend 32 <<< 2)
      | .j addr => (s.pc &&& 0xF0000000#32) ||| (addr.zeroExtend 32 <<< 2)
      | _ => s.pc + 4

/-- R163, R165: every instruction completes in every state, but a `lw` or `sw` whose word index is not below
`DMEM_WORDS` (the spec's decision D8; assumption 11): no overflow, no misalignment, no other stop. Where the range ends
rests, from byte address 0x80000000 on, on the unsigned division of the address (D5; assumption 7). -/
def Obligations.OnlyDataAccessesCanStop : Prop :=
  ∀ (i : Instr) (s : State),
    (∃ t, exec i s = .next t) ∨
    ∃ rs rt imm, (i = .lw rs rt imm ∨ i = .sw rs rt imm) ∧
      s.dmem.words ≤ (s.effectiveAddress rs imm).toNat / 4 ∧
      exec i s = .fault (.dataOutOfRange (s.effectiveAddress rs imm) s.pc)

/-- R153: the next `pc` of a jump is independent of register contents. -/
def Obligations.JumpIgnoresRegisters : Prop :=
  ∀ (addr : Addr26) (s s' : State), s.pc = s'.pc →
    ∃ t t', exec (.j addr) s = .next t ∧ exec (.j addr) s' = .next t' ∧ t.pc = t'.pc

/-! ## Memory -/

/-- R35: the four byte addresses of a word all name it, for a load and for a store, unrotated. From
byte address 0x80000000 on this rests on the unsigned division of the address (the spec's decision D5; assumption 7). -/
def Obligations.FourAddressesNameOneWord : Prop :=
  ∀ (m : Memory) (k j : Nat) (v : Word), j < 4 → 4 * k + j < 2 ^ 32 → k < m.words →
    m.load (BitVec.ofNat 32 (4 * k + j)) = some (m.word k) ∧
    m.store (BitVec.ofNat 32 (4 * k + j)) v = some (m.setWord k v)

/-- R33, R43: a stored word reads back whole, every other word and every byte outside it reads as before, and the
canonical form is kept. -/
def Obligations.WordReadsWhatWasStored : Prop :=
  ∀ (m : Memory) (k : Nat) (v : Word), m.wf = true → k < m.words →
    (m.setWord k v).word k = v ∧
    (∀ k' : Nat, k' ≠ k → (m.setWord k v).word k' = m.word k') ∧
    (∀ a : Nat, a < 4 * k ∨ 4 * k + 4 ≤ a → (m.setWord k v).readByte a = m.readByte a) ∧
    (m.setWord k v).wf = true

/-- R40, R186: a load from the word just stored to, by the next instruction, returns the stored value. Which addresses
name one word rests, from byte address 0x80000000 on, on their unsigned division (the spec's decision D5; assumption 7);
that the load too is in range, on D8 (assumption 11). -/
def Obligations.LoadSeesTheStoreBeforeIt : Prop :=
  ∀ (rs rt rs' rt' : RegNum) (imm imm' : Imm16) (s t : State), s.dmem.wf = true →
    exec (.sw rs rt imm) s = .next t →
    (t.effectiveAddress rs' imm').toNat / 4 = (s.effectiveAddress rs imm).toNat / 4 →
    ∃ u, exec (.lw rs' rt' imm') t = .next u ∧ u.reg rt' = s.reg rt

/-- R189, R42: no step writes the instruction memory, so every later fetch reads the image as it was. -/
def Obligations.NoStepWritesInstructionMemory : Prop :=
  ∀ s t : State, step s = .next t → t.imem = s.imem ∧ ∀ pc : Word, t.imem.load pc = s.imem.load pc

/-! ## The step -/

/-- A step at an aligned `pc` runs the instruction that the word there decodes to; a step adds nothing around it. -/
def Obligations.StepRunsTheDecodedInstruction : Prop :=
  ∀ (s : State) (w : Word) (i : Instr), s.pc.toNat % 4 = 0 → s.imem.load s.pc = some w → decode w = .ok i →
    step s = exec i s

/-- R105: a step, through the decoder and the instruction's own meaning, is the cycle of the eight units on the raw word,
for every word and every state, the faults (the spec's decisions D7, D8 and D10; assumption 11) and the refusal of a
misaligned `pc` (D9; assumption 13) included. -/
def Obligations.StepIsTheCycleOfTheUnits : Prop :=
  ∀ s : State, step s = cycle s

/-- R162, R168 (the spec's decision D7; assumption 11): a fetch whose word index is not below `IMEM_WORDS` faults, before
anything else in the cycle.The index is the unsigned division of the address (D5; assumption 7). -/
def Obligations.FetchOutOfRangeFaults : Prop :=
  ∀ s : State, s.pc.toNat % 4 = 0 → s.imem.words ≤ s.pc.toNat / 4 → step s = .fault (.fetchOutOfRange s.pc)

/-- R160: a word that is not legal faults in every state, with the word and the `pc` (what the fault carries is decision
D10; assumption 11). -/
def Obligations.IllegalWordFaults : Prop :=
  ∀ (s : State) (w : Word), s.pc.toNat % 4 = 0 → s.imem.load s.pc = some w →
    legalPair (Fields.ofWord w).opcode (Fields.ofWord w).funct = false →
    step s = .fault (.illegalInstruction w s.pc)

/-- R164 (the spec's decision D9; assumption 13): a `pc` that is not a multiple of 4 gives no run, from a launch or from
a state. -/
def Obligations.MisalignedPcIsRefused : Prop :=
  (∀ s : State, s.pc.toNat % 4 ≠ 0 → step s = .refused (.misalignedPc s.pc)) ∧
  (∀ l : Launch, l.resetPc.toNat % 4 ≠ 0 → launch l = .refused (.misalignedPc l.resetPc))

/-- R62: the all-zero word acts as a no-op: only `pc` changes. -/
def Obligations.ZeroWordIsANoOp : Prop :=
  ∀ s : State, s.pc.toNat % 4 = 0 → s.imem.load s.pc = some 0 → step s = .next { s with pc := s.pc + 4 }

/-- The load of one word at the fetch address (the model's stand-in for the loader, assumption 10): the next step runs
it. -/
def Obligations.PlacedWordRunsNext : Prop :=
  ∀ (s : State) (w : Nat) (i : Instr), s.imem.wf = true → decode (BitVec.ofNat 32 w) = .ok i →
    step (s.withFetchWord 32 w) = exec i (s.withFetchWord 32 w)

/-! ## Invariant, reset, launch, runs -/

/-- R14 with R183: a step keeps `pc` a multiple of 4, both memories in canonical form, and their sizes in bounds. -/
def Obligations.StepKeepsTheInvariant : Prop :=
  ∀ s t : State, s.Inv → step s = .next t → t.Inv

/-- The reset state meets the invariant. -/
def Obligations.ResetMeetsTheInvariant : Prop :=
  State.reset.Inv

/-- The reset state: `pc` at the default of R23; the registers, the sizes and the contents of the memories at the
model's choice (assumptions 5, 8 and 9), the spec giving none. It is the state the default launch makes. -/
def Obligations.ResetIsTheDefaultLaunch : Prop :=
  launch Launch.default = .next State.reset ∧ State.reset.pc = 0 ∧ (∀ r : RegNum, State.reset.reg r = 0) ∧
  State.reset.imem = { words := 2 ^ 30, cells := [] } ∧ State.reset.dmem = { words := 2 ^ 30, cells := [] }

/-- R181, R183 (the spec's decision D11): within the limits a launch makes the state its parameters describe, and that
state meets the invariant. -/
def Obligations.LaunchMakesTheStateSupplied : Prop :=
  ∀ l : Launch, l.resetPc.toNat % 4 = 0 → 1 ≤ l.imemWords → l.imemWords ≤ 2 ^ 30 → l.dmemWords ≤ 2 ^ 30 →
    l.image.length ≤ l.imemWords → l.data.length ≤ l.dmemWords →
    ∃ s, launch l = .next s ∧ s.Inv ∧ s.pc = l.resetPc ∧ s.x = l.x0 ∧
      s.imem.words = l.imemWords ∧ s.dmem.words = l.dmemWords ∧
      (∀ (k : Nat) (h : k < l.image.length), s.imem.word k = l.image[k]) ∧
      (∀ (k : Nat) (h : k < l.data.length), s.dmem.word k = l.data[k])

/-- R161 (the spec's decision D10; assumption 11): a run that ends in a fault ends in the state its completed cycles made,
where the next cycle faults; nothing of that cycle is written. -/
def Obligations.FaultedRunKeepsItsState : Prop :=
  ∀ (n : Nat) (s u : State) (r : Fault), runCycles n s = .faulted r u →
    step u = .fault r ∧ ∃ k : Nat, k < n ∧ runCycles k s = .normal u

/-- R184, `HALT_PC = h` (the spec's decision D13): the run ends normally in a state exactly when that state is reached by
completed cycles, has `pc = h`, and no earlier boundary has. -/
def Obligations.HaltPolicyStopsAtFirstBoundary : Prop :=
  ∀ (h : Word) (n : Nat) (s t : State), runToHalt h n s = .normal t ↔
    ∃ k : Nat, k ≤ n ∧ runCycles k s = .normal t ∧ t.pc = h ∧
      ∀ j : Nat, j < k → ∃ u, runCycles j s = .normal u ∧ u.pc ≠ h
end

