-- ==== Sys2Proof/Laws/Decode.lean ====
section
/-! SUPPORT. The fields of an encoded word, by format (30_encoding.md R51 to R54). -/

namespace Sys2Proof

/-- The bits of the immediate that an R-type word's low half is. -/
theorem getLsbD_imm16_of_rType (rd : RegNum) (shamt : Shamt) (funct : Code6) (i : Nat) :
    (rd ++ shamt ++ funct : Imm16).getLsbD i =
      if i < 6 then funct.getLsbD i else if i - 6 < 5 then shamt.getLsbD (i - 6) else rd.getLsbD (i - 6 - 5) := by
  simp only [BitVec.getLsbD_append]

/-- The bits of the address field that an R-type word's low part is. -/
theorem getLsbD_addr26_of_rType (rs rt rd : RegNum) (shamt : Shamt) (funct : Code6) (i : Nat) :
    (rs ++ rt ++ rd ++ shamt ++ funct : Addr26).getLsbD i =
      if i < 6 then funct.getLsbD i else if i - 6 < 5 then shamt.getLsbD (i - 6)
      else if i - 6 - 5 < 5 then rd.getLsbD (i - 6 - 5) else if i - 6 - 5 - 5 < 5 then rt.getLsbD (i - 6 - 5 - 5)
      else rs.getLsbD (i - 6 - 5 - 5 - 5) := by
  simp only [BitVec.getLsbD_append]

/-- The bits of the address field that an I-type word's low part is. -/
theorem getLsbD_addr26_of_iType (rs rt : RegNum) (imm : Imm16) (i : Nat) :
    (rs ++ rt ++ imm : Addr26).getLsbD i =
      if i < 16 then imm.getLsbD i else if i - 16 < 5 then rt.getLsbD (i - 16) else rs.getLsbD (i - 16 - 5) := by
  simp only [BitVec.getLsbD_append]

/-- The bits of an R-type word. -/
theorem getLsbD_encodeR (rs rt rd : RegNum) (shamt : Shamt) (funct : Code6) (i : Nat) :
    (encodeR rs rt rd shamt funct).getLsbD i =
      if i < 6 then funct.getLsbD i else if i - 6 < 5 then shamt.getLsbD (i - 6)
      else if i - 6 - 5 < 5 then rd.getLsbD (i - 6 - 5) else if i - 6 - 5 - 5 < 5 then rt.getLsbD (i - 6 - 5 - 5)
      else if i - 6 - 5 - 5 - 5 < 5 then rs.getLsbD (i - 6 - 5 - 5 - 5) else false := by
  change BitVec.getLsbD (0#6 ++ rs ++ rt ++ rd ++ shamt ++ funct) i = _
  simp only [BitVec.getLsbD_append, BitVec.getLsbD_zero]

/-- The bits of an I-type word. -/
theorem getLsbD_encodeI (opcode : Code6) (rs rt : RegNum) (imm : Imm16) (i : Nat) :
    (encodeI opcode rs rt imm).getLsbD i =
      if i < 16 then imm.getLsbD i else if i - 16 < 5 then rt.getLsbD (i - 16)
      else if i - 16 - 5 < 5 then rs.getLsbD (i - 16 - 5) else opcode.getLsbD (i - 16 - 5 - 5) := by
  change BitVec.getLsbD (opcode ++ rs ++ rt ++ imm) i = _
  simp only [BitVec.getLsbD_append]

/-- The bits of a J-type word. -/
theorem getLsbD_encodeJ (opcode : Code6) (addr : Addr26) (i : Nat) :
    (encodeJ opcode addr).getLsbD i = if i < 26 then addr.getLsbD i else opcode.getLsbD (i - 26) := by
  change BitVec.getLsbD (opcode ++ addr) i = _
  simp only [BitVec.getLsbD_append]

/-- A slice of a word is a vector if its bits are the word's. -/
theorem extractLsb'_eq_of_bits {n : Nat} {w : Word} {start : Nat} {v : BitVec n}
    (h : ∀ i, i < n → w.getLsbD (start + i) = v.getLsbD i) : w.extractLsb' start n = v :=
  BitVec.eq_of_getLsbD_eq fun i hi => by simpa [BitVec.getLsbD_extractLsb', hi] using h i hi

theorem Fields.ofWord_encodeR (rs rt rd : RegNum) (shamt : Shamt) (funct : Code6) :
    Fields.ofWord (encodeR rs rt rd shamt funct) = .rType rs rt rd shamt funct := by
  simp only [Fields.ofWord, Fields.rType, Fields.mk.injEq]
  refine ⟨?_, ?_, ?_, ?_, ?_, ?_, ?_, congrArg sext32 ?_, ?_⟩
  all_goals
    refine extractLsb'_eq_of_bits fun i hi => ?_
    simp only [getLsbD_encodeR, getLsbD_imm16_of_rType, getLsbD_addr26_of_rType, BitVec.ofNat_eq_ofNat, BitVec.getLsbD_zero]
    repeat' split
    all_goals first | rfl | omega | (congr 1; omega)

theorem Fields.ofWord_encodeI (opcode : Code6) (rs rt : RegNum) (imm : Imm16) :
    Fields.ofWord (encodeI opcode rs rt imm) = .iType opcode rs rt imm := by
  simp only [Fields.ofWord, Fields.iType, Fields.mk.injEq]
  refine ⟨?_, ?_, ?_, ?_, ?_, ?_, ?_, congrArg sext32 ?_, ?_⟩
  all_goals
    refine extractLsb'_eq_of_bits fun i hi => ?_
    simp only [getLsbD_encodeI, getLsbD_addr26_of_iType, BitVec.getLsbD_extractLsb', hi, decide_true, Bool.true_and]
    repeat' split
    all_goals first | rfl | omega | (congr 1; omega)

theorem Fields.ofWord_encodeJ (opcode : Code6) (addr : Addr26) :
    Fields.ofWord (encodeJ opcode addr) = .jType opcode addr := by
  simp only [Fields.ofWord, Fields.jType, Fields.mk.injEq]
  refine ⟨?_, ?_, ?_, ?_, ?_, ?_, ?_, congrArg sext32 ?_, ?_⟩
  all_goals
    refine extractLsb'_eq_of_bits fun i hi => ?_
    simp only [getLsbD_encodeJ, BitVec.getLsbD_extractLsb', hi, decide_true, Bool.true_and]
    repeat' split
    all_goals first | rfl | omega | (congr 1; omega)

/-! ## The decoder -/

/-- A slice of a slice. -/
theorem extractLsb'_of_low {n m k : Nat} (w : Word) (h : k + m ≤ n) :
    w.extractLsb' k m = (w.extractLsb' 0 n).extractLsb' k m :=
  extractLsb'_eq_of_bits fun i hi => by
    have hn : k + i < n := by omega
    simp only [BitVec.getLsbD_extractLsb', hi, hn, decide_true, Bool.true_and, Nat.zero_add]

/-- Every word's fields are those of a J-type word. -/
theorem Fields.ofWord_eq_jType (w : Word) :
    Fields.ofWord w = .jType (Fields.ofWord w).opcode (Fields.ofWord w).addr26 := by
  simp only [Fields.ofWord, Fields.jType, Fields.mk.injEq, true_and, and_true]
  exact ⟨extractLsb'_of_low w (by omega), extractLsb'_of_low w (by omega), extractLsb'_of_low w (by omega),
    extractLsb'_of_low w (by omega), extractLsb'_of_low w (by omega), extractLsb'_of_low w (by omega),
    congrArg sext32 (extractLsb'_of_low w (by omega))⟩

/-- Every word's fields are those of an I-type word. -/
theorem Fields.ofWord_eq_iType (w : Word) :
    Fields.ofWord w =
      .iType (Fields.ofWord w).opcode (Fields.ofWord w).rs (Fields.ofWord w).rt (Fields.ofWord w).imm16 := by
  simp only [Fields.ofWord, Fields.iType, Fields.mk.injEq, true_and]
  refine ⟨extractLsb'_of_low w (by omega), extractLsb'_of_low w (by omega), extractLsb'_of_low w (by omega), ?_⟩
  refine extractLsb'_eq_of_bits fun i hi => ?_
  rw [getLsbD_addr26_of_iType]
  repeat' split
  · rw [BitVec.getLsbD_extractLsb', decide_eq_true ‹_›, Bool.true_and]
  · rw [BitVec.getLsbD_extractLsb', decide_eq_true ‹_›, Bool.true_and]
    congr 1; omega
  · rw [BitVec.getLsbD_extractLsb', decide_eq_true (by omega), Bool.true_and]
    congr 1; omega

/-- A word's fields are those of an R-type word, if its opcode is 0. -/
theorem Fields.ofWord_eq_rType {w : Word} (h : (Fields.ofWord w).opcode = 0) :
    Fields.ofWord w = .rType (Fields.ofWord w).rs (Fields.ofWord w).rt (Fields.ofWord w).rd (Fields.ofWord w).shamt
      (Fields.ofWord w).funct := by
  have imm : (Fields.ofWord w).imm16 = (Fields.ofWord w).rd ++ (Fields.ofWord w).shamt ++ (Fields.ofWord w).funct := by
    refine extractLsb'_eq_of_bits fun i hi => ?_
    rw [getLsbD_imm16_of_rType]
    simp only [Fields.ofWord]
    repeat' split
    · rw [BitVec.getLsbD_extractLsb', decide_eq_true ‹_›, Bool.true_and]
    · rw [BitVec.getLsbD_extractLsb', decide_eq_true ‹_›, Bool.true_and]
      congr 1; omega
    · rw [BitVec.getLsbD_extractLsb', decide_eq_true (by omega), Bool.true_and]
      congr 1; omega
  have addr : (Fields.ofWord w).addr26 = (Fields.ofWord w).rs ++ (Fields.ofWord w).rt ++ (Fields.ofWord w).rd ++
      (Fields.ofWord w).shamt ++ (Fields.ofWord w).funct := by
    refine extractLsb'_eq_of_bits fun i hi => ?_
    rw [getLsbD_addr26_of_rType]
    simp only [Fields.ofWord]
    repeat' split
    · rw [BitVec.getLsbD_extractLsb', decide_eq_true ‹_›, Bool.true_and]
    all_goals
      rw [BitVec.getLsbD_extractLsb', decide_eq_true (by omega), Bool.true_and]
      congr 1; omega
  exact Fields.mk.injEq .. |>.mpr ⟨h, rfl, rfl, rfl, rfl, rfl, imm, congrArg sext32 imm, addr⟩

/-- What the decoder reads: a word it accepts has a legal pair of codes, and the instruction's fields are the word's. -/
theorem decode_eq_ok {w : Word} {i : Instr} (h : decode w = .ok i) :
    i.fields = Fields.ofWord w ∧ legalPair (Fields.ofWord w).opcode (Fields.ofWord w).funct = true := by
  have lit : ∀ {v : Code6} {n : Nat}, v.toNat = n → v = BitVec.ofNat 6 n := by
    rintro v n rfl
    simp
  have hI := Fields.ofWord_eq_iType w
  have hJ := Fields.ofWord_eq_jType w
  simp only [decode, decodeFields, decodeRType] at h
  split at h
  · next h0 =>
    have hR := Fields.ofWord_eq_rType (lit h0)
    split at h
    all_goals first
      | (cases h; done)
      | (next hf => cases h; rw [lit hf] at hR; rw [lit h0, lit hf]; exact ⟨hR.symm, rfl⟩)
  all_goals first
    | (cases h; done)
    | (next ho => cases h; rw [lit ho] at hI; rw [lit ho]; exact ⟨hI.symm, rfl⟩)
    | (next ho => cases h; rw [lit ho] at hJ; rw [lit ho]; exact ⟨hJ.symm, rfl⟩)

/-- The decoder reads every word with a legal pair of codes. -/
theorem decode_of_legal {w : Word} (h : legalPair (Fields.ofWord w).opcode (Fields.ofWord w).funct = true) :
    ∃ i, decode w = .ok i := by
  simp only [decode]
  generalize Fields.ofWord w = f at h
  obtain ⟨op, rs, rt, rd, sh, fn, imm, simm, ad⟩ := f
  simp only [legalPair] at h
  split at h
  · simp only [legalFunct, beq_iff_eq, Bool.or_eq_true] at *
    subst op
    rcases h with (((((((h | h) | h) | h) | h) | h) | h) | h) | h <;> subst h <;> exact ⟨_, rfl⟩
  · simp only [legalOpcode, beq_iff_eq, Bool.or_eq_true] at *
    rcases h with (((((((h | h) | h) | h) | h) | h) | h) | h) | h <;> subst h <;> exact ⟨_, rfl⟩

end Sys2Proof
end

