-- ==== Sys2Proof/Laws/Memory.lean ====
section
/-! SUPPORT. The laws of memory: reading after writing, and that every operation keeps the canonical form. -/

namespace Sys2Proof.Machine

/-! ## Cells -/

theorem Cells.read_write_ne (cells : List Host.Cell) {a a' : Nat} (b : Byte) (h : a' ≠ a) :
    Cells.read (Cells.write cells a b) a' = Cells.read cells a' := by
  induction cells with
  | nil => simp only [Cells.write]; split <;> simp [Cells.read, h.symm]
  | cons c rest ih =>
    obtain ⟨k, c⟩ := c
    simp only [Cells.write]
    repeat' split
    all_goals simp_all [Cells.read, h.symm]

/-- An address below every listed one is unlisted. -/
theorem Cells.read_of_canonical_above {cells : List Host.Cell} {lo hi a : Nat}
    (h : Cells.canonical lo hi cells = true) (ha : a < lo) : Cells.read cells a = Config.unwrittenByte := by
  induction cells generalizing lo with
  | nil => rfl
  | cons c rest ih =>
    obtain ⟨k, c⟩ := c
    simp only [Cells.canonical, Bool.and_eq_true, decide_eq_true_eq] at h
    have hk : k ≠ a := by omega
    simp only [Cells.read, hk, if_false]
    exact ih h.2 (by omega)

theorem Cells.read_write_same {cells : List Host.Cell} {lo hi : Nat} (a : Nat) (b : Byte)
    (h : Cells.canonical lo hi cells = true) : Cells.read (Cells.write cells a b) a = b := by
  induction cells generalizing lo with
  | nil => simp only [Cells.write]; split <;> simp_all [Cells.read]
  | cons c rest ih =>
    obtain ⟨k, c⟩ := c
    have hc := h
    simp only [Cells.canonical, Bool.and_eq_true, decide_eq_true_eq] at h
    simp only [Cells.write]
    split
    · split
      · rw [Cells.read_of_canonical_above h.2 (by omega)]; simp_all
      · simp [Cells.read]
    · split
      · split
        · rw [Cells.read_of_canonical_above (lo := k) (hi := hi) _ (by omega)]
          · simp_all
          · simp_all [Cells.canonical]
        · simp [Cells.read]
      · simp only [Cells.read]
        rw [if_neg ‹_›]
        exact ih h.2

theorem Cells.canonical_weaken {cells : List Host.Cell} {lo lo' hi : Nat} (hl : lo' ≤ lo)
    (h : Cells.canonical lo hi cells = true) : Cells.canonical lo' hi cells = true := by
  cases cells with
  | nil => rfl
  | cons c rest =>
    obtain ⟨k, c⟩ := c
    simp only [Cells.canonical, Bool.and_eq_true, decide_eq_true_eq] at h ⊢
    exact ⟨⟨⟨by omega, h.1.1.2⟩, h.1.2⟩, h.2⟩

theorem Cells.canonical_grow {cells : List Host.Cell} {lo hi hi' : Nat} (hh : hi ≤ hi')
    (h : Cells.canonical lo hi cells = true) : Cells.canonical lo hi' cells = true := by
  induction cells generalizing lo with
  | nil => rfl
  | cons c rest ih =>
    obtain ⟨k, c⟩ := c
    simp only [Cells.canonical, Bool.and_eq_true, decide_eq_true_eq] at h ⊢
    exact ⟨⟨⟨h.1.1.1, by omega⟩, h.1.2⟩, ih h.2⟩

theorem Cells.canonical_write {cells : List Host.Cell} {lo hi a : Nat} (b : Byte) (hlo : lo ≤ a) (hhi : a < hi)
    (h : Cells.canonical lo hi cells = true) : Cells.canonical lo hi (Cells.write cells a b) = true := by
  induction cells generalizing lo with
  | nil =>
    simp only [Cells.write]
    split <;> simp_all [Cells.canonical]
  | cons c rest ih =>
    obtain ⟨k, c⟩ := c
    have hc := h
    simp only [Cells.canonical, Bool.and_eq_true, decide_eq_true_eq] at h
    simp only [Cells.write]
    split
    · split
      · exact Cells.canonical_weaken (by omega) h.2
      · subst_vars
        simp_all [Cells.canonical]
    · split
      · split
        · exact hc
        · simp_all [Cells.canonical]
      · have hk : k + 1 ≤ a := by omega
        have := ih hk h.2
        simp_all [Cells.canonical]

/-! ## Words -/

theorem wordOfBytes_wordByte (o : ByteOrder) (v : Word) :
    wordOfBytes o (wordByte o v 0) (wordByte o v 1) (wordByte o v 2) (wordByte o v 3) = v := by
  cases o <;>
  · simp only [wordOfBytes, wordByte]
    ext i hi
    rw [← BitVec.getLsbD_eq_getElem (x := v) hi]
    simp only [BitVec.getElem_append, BitVec.getElem_extractLsb']
    repeat' split
    all_goals congr 1; omega

@[simp] theorem Memory.setWord_words (m : Memory) (k : Nat) (v : Word) : (m.setWord k v).words = m.words := rfl

/-- A byte outside the four written reads as before. -/
theorem Memory.readByte_setWord_outside (m : Memory) {k a : Nat} (v : Word) (h : a < 4 * k ∨ 4 * k + 4 ≤ a) :
    (m.setWord k v).readByte a = m.readByte a := by
  simp only [Memory.readByte, Memory.setWord]
  rw [Cells.read_write_ne _ _ (by omega), Cells.read_write_ne _ _ (by omega), Cells.read_write_ne _ _ (by omega),
    Cells.read_write_ne _ _ (by omega)]

theorem Memory.word_setWord_ne (m : Memory) {k k' : Nat} (v : Word) (h : k' ≠ k) :
    (m.setWord k v).word k' = m.word k' := by
  simp only [Memory.word]
  rw [Memory.readByte_setWord_outside _ _ (by omega), Memory.readByte_setWord_outside _ _ (by omega),
    Memory.readByte_setWord_outside _ _ (by omega), Memory.readByte_setWord_outside _ _ (by omega)]

theorem Memory.wf_setWord {m : Memory} {k : Nat} (v : Word) (hm : m.wf = true) (hk : k < m.words) :
    (m.setWord k v).wf = true := by
  simp only [Memory.wf, Memory.setWord] at *
  exact Cells.canonical_write _ (by omega) (by omega) (Cells.canonical_write _ (by omega) (by omega)
    (Cells.canonical_write _ (by omega) (by omega) (Cells.canonical_write _ (by omega) (by omega) hm)))

theorem Memory.word_setWord_same {m : Memory} {k : Nat} (v : Word) (hm : m.wf = true) (hk : k < m.words) :
    (m.setWord k v).word k = v := by
  have h0 : Cells.canonical 0 (4 * m.words) m.cells = true := hm
  have h1 := Cells.canonical_write (a := 4 * k) (wordByte Config.hostByteOrder v 0) (by omega) (by omega) h0
  have h2 := Cells.canonical_write (a := 4 * k + 1) (wordByte Config.hostByteOrder v 1) (by omega) (by omega) h1
  have h3 := Cells.canonical_write (a := 4 * k + 2) (wordByte Config.hostByteOrder v 2) (by omega) (by omega) h2
  have e0 : (m.setWord k v).readByte (4 * k) = wordByte Config.hostByteOrder v 0 := by
    simp only [Memory.readByte, Memory.setWord]
    rw [Cells.read_write_ne _ _ (by omega), Cells.read_write_ne _ _ (by omega), Cells.read_write_ne _ _ (by omega),
      Cells.read_write_same _ _ h0]
  have e1 : (m.setWord k v).readByte (4 * k + 1) = wordByte Config.hostByteOrder v 1 := by
    simp only [Memory.readByte, Memory.setWord]
    rw [Cells.read_write_ne _ _ (by omega), Cells.read_write_ne _ _ (by omega), Cells.read_write_same _ _ h1]
  have e2 : (m.setWord k v).readByte (4 * k + 2) = wordByte Config.hostByteOrder v 2 := by
    simp only [Memory.readByte, Memory.setWord]
    rw [Cells.read_write_ne _ _ (by omega), Cells.read_write_same _ _ h2]
  have e3 : (m.setWord k v).readByte (4 * k + 3) = wordByte Config.hostByteOrder v 3 := by
    simp only [Memory.readByte, Memory.setWord]
    rw [Cells.read_write_same _ _ h3]
  rw [Memory.word, e0, e1, e2, e3, wordOfBytes_wordByte]

/-! ## Loads and stores -/

theorem Memory.load_eq_some {m : Memory} {a w : Word} :
    m.load a = some w ↔ wordIndex a < m.words ∧ m.word (wordIndex a) = w := by
  simp [Memory.load]

theorem Memory.load_eq_none {m : Memory} {a : Word} : m.load a = none ↔ m.words ≤ wordIndex a := by
  simp [Memory.load]

theorem Memory.store_eq_some {m m' : Memory} {a v : Word} :
    m.store a v = some m' ↔ wordIndex a < m.words ∧ m.setWord (wordIndex a) v = m' := by
  simp [Memory.store]

theorem Memory.store_eq_none {m : Memory} {a v : Word} : m.store a v = none ↔ m.words ≤ wordIndex a := by
  simp [Memory.store]

/-! ## Launch -/

theorem Memory.wf_empty (n : Nat) : (Memory.empty n).wf = true := rfl

@[simp] theorem Memory.fill_words (m : Memory) (k : Nat) (ws : List Word) : (m.fill k ws).words = m.words := by
  induction ws generalizing m k with
  | nil => rfl
  | cons w ws ih => simp [Memory.fill, ih]

theorem Memory.wf_fill {m : Memory} {k : Nat} {ws : List Word} (hm : m.wf = true) (hk : k + ws.length ≤ m.words) :
    (m.fill k ws).wf = true := by
  induction ws generalizing m k with
  | nil => exact hm
  | cons w ws ih =>
    simp only [List.length_cons] at hk
    exact ih (Memory.wf_setWord w hm (by omega)) (by simp only [Memory.setWord_words]; omega)

theorem Memory.word_fill_below (m : Memory) {k j : Nat} (ws : List Word) (h : j < k) :
    (m.fill k ws).word j = m.word j := by
  induction ws generalizing m k with
  | nil => rfl
  | cons w ws ih => rw [Memory.fill, ih _ (by omega), Memory.word_setWord_ne _ _ (by omega)]

/-- The words of the list stand at consecutive indices. -/
theorem Memory.word_fill {m : Memory} {k : Nat} {ws : List Word} (hm : m.wf = true) (hk : k + ws.length ≤ m.words)
    {j : Nat} (hj : j < ws.length) : (m.fill k ws).word (k + j) = ws[j] := by
  induction ws generalizing m k j with
  | nil => simp at hj
  | cons w ws ih =>
    simp only [List.length_cons] at hk hj
    have hw := Memory.wf_setWord (k := k) w hm (by omega)
    cases j with
    | zero =>
      rw [Nat.add_zero, Memory.fill, Memory.word_fill_below (k := k + 1) (j := k) _ ws (by omega),
        Memory.word_setWord_same w hm (by omega)]
      rfl
    | succ j =>
      have := ih (k := k + 1) (j := j) hw (by simp only [Memory.setWord_words]; omega) (by omega)
      rw [Memory.fill, show k + (j + 1) = k + 1 + j by omega, this]; rfl

end Sys2Proof.Machine
end

