-- ==== Sys2Proof/Laws/PerInstr.lean ====
section
/-! SUPPORT. Statements made for every instruction, one lemma per constructor: the Decoder unit, given an instruction's
word, produces that instruction's fields (30_encoding.md R51 to R54). -/

namespace Sys2Proof.Laws.FieldsOfEncode

def Statement (i : Instr) : Prop := Fields.ofWord (encode i) = i.fields

theorem sll (rs rt rd : RegNum) (shamt : Shamt) : Statement (.sll rs rt rd shamt) :=
  Fields.ofWord_encodeR rs rt rd shamt _

theorem add (rs rt rd : RegNum) (shamt : Shamt) : Statement (.add rs rt rd shamt) :=
  Fields.ofWord_encodeR rs rt rd shamt _

theorem addu (rs rt rd : RegNum) (shamt : Shamt) : Statement (.addu rs rt rd shamt) :=
  Fields.ofWord_encodeR rs rt rd shamt _

theorem sub (rs rt rd : RegNum) (shamt : Shamt) : Statement (.sub rs rt rd shamt) :=
  Fields.ofWord_encodeR rs rt rd shamt _

theorem subu (rs rt rd : RegNum) (shamt : Shamt) : Statement (.subu rs rt rd shamt) :=
  Fields.ofWord_encodeR rs rt rd shamt _

theorem and (rs rt rd : RegNum) (shamt : Shamt) : Statement (.and rs rt rd shamt) :=
  Fields.ofWord_encodeR rs rt rd shamt _

theorem or (rs rt rd : RegNum) (shamt : Shamt) : Statement (.or rs rt rd shamt) :=
  Fields.ofWord_encodeR rs rt rd shamt _

theorem xor (rs rt rd : RegNum) (shamt : Shamt) : Statement (.xor rs rt rd shamt) :=
  Fields.ofWord_encodeR rs rt rd shamt _

theorem slt (rs rt rd : RegNum) (shamt : Shamt) : Statement (.slt rs rt rd shamt) :=
  Fields.ofWord_encodeR rs rt rd shamt _

theorem j (addr : Addr26) : Statement (.j addr) := Fields.ofWord_encodeJ _ addr

theorem beq (rs rt : RegNum) (imm : Imm16) : Statement (.beq rs rt imm) := Fields.ofWord_encodeI _ rs rt imm

theorem bne (rs rt : RegNum) (imm : Imm16) : Statement (.bne rs rt imm) := Fields.ofWord_encodeI _ rs rt imm

theorem addi (rs rt : RegNum) (imm : Imm16) : Statement (.addi rs rt imm) := Fields.ofWord_encodeI _ rs rt imm

theorem addiu (rs rt : RegNum) (imm : Imm16) : Statement (.addiu rs rt imm) := Fields.ofWord_encodeI _ rs rt imm

theorem slti (rs rt : RegNum) (imm : Imm16) : Statement (.slti rs rt imm) := Fields.ofWord_encodeI _ rs rt imm

theorem andi (rs rt : RegNum) (imm : Imm16) : Statement (.andi rs rt imm) := Fields.ofWord_encodeI _ rs rt imm

theorem lw (rs rt : RegNum) (imm : Imm16) : Statement (.lw rs rt imm) := Fields.ofWord_encodeI _ rs rt imm

theorem sw (rs rt : RegNum) (imm : Imm16) : Statement (.sw rs rt imm) := Fields.ofWord_encodeI _ rs rt imm

end Sys2Proof.Laws.FieldsOfEncode
end

