-- ==== Sys2Proof/Laws/State.lean ====
section
/-! SUPPORT. Every field of the state after every update of Ops.lean, and reading a register after one. -/

namespace Sys2Proof.Machine

@[simp] theorem State.setPc_x (s : State) (t : Word) : (s.setPc t).x = s.x := rfl
@[simp] theorem State.setPc_pc (s : State) (t : Word) : (s.setPc t).pc = t := rfl
@[simp] theorem State.setPc_imem (s : State) (t : Word) : (s.setPc t).imem = s.imem := rfl
@[simp] theorem State.setPc_dmem (s : State) (t : Word) : (s.setPc t).dmem = s.dmem := rfl
@[simp] theorem State.reg_setPc (s : State) (t : Word) (r : RegNum) : (s.setPc t).reg r = s.reg r := rfl

@[simp] theorem State.setDmem_x (s : State) (m : Memory) : (s.setDmem m).x = s.x := rfl
@[simp] theorem State.setDmem_pc (s : State) (m : Memory) : (s.setDmem m).pc = s.pc := rfl
@[simp] theorem State.setDmem_imem (s : State) (m : Memory) : (s.setDmem m).imem = s.imem := rfl
@[simp] theorem State.setDmem_dmem (s : State) (m : Memory) : (s.setDmem m).dmem = m := rfl
@[simp] theorem State.reg_setDmem (s : State) (m : Memory) (r : RegNum) : (s.setDmem m).reg r = s.reg r := rfl
@[simp] theorem State.setDmem_same (s : State) : s.setDmem s.dmem = s := rfl

@[simp] theorem State.setReg_x (s : State) (r : RegNum) (v : Word) : (s.setReg r v).x = s.x.set r.toNat v r.isLt := rfl
@[simp] theorem State.setReg_pc (s : State) (r : RegNum) (v : Word) : (s.setReg r v).pc = s.pc := rfl
@[simp] theorem State.setReg_imem (s : State) (r : RegNum) (v : Word) : (s.setReg r v).imem = s.imem := rfl
@[simp] theorem State.setReg_dmem (s : State) (r : RegNum) (v : Word) : (s.setReg r v).dmem = s.dmem := rfl

/-- `REG0_HARDWIRED = false`: a register write is the update of one slot, register 0's too. -/
theorem State.setReg_eq (s : State) (r : RegNum) (v : Word) :
    s.setReg r v = { s with x := s.x.set r.toNat v r.isLt } := rfl

theorem State.reg_setReg (s : State) (r r' : RegNum) (v : Word) :
    (s.setReg r v).reg r' = if r' = r then v else s.reg r' := by
  simp [State.reg, Vector.getElem_set, BitVec.toNat_inj, eq_comm]

@[simp] theorem State.reg_setReg_same (s : State) (r : RegNum) (v : Word) : (s.setReg r v).reg r = v := by
  simp [State.reg_setReg]

theorem State.reg_setReg_ne (s : State) {r r' : RegNum} (v : Word) (h : r' ≠ r) :
    (s.setReg r v).reg r' = s.reg r' := by
  simp [State.reg_setReg, h]

@[simp] theorem State.writeback_none (s : State) : s.writeback none = s := rfl
@[simp] theorem State.writeback_some (s : State) (r : RegNum) (v : Word) : s.writeback (some (r, v)) = s.setReg r v := rfl

@[simp] theorem State.writeback_pc (s : State) (p : Option (RegNum × Word)) : (s.writeback p).pc = s.pc := by
  cases p <;> rfl
@[simp] theorem State.writeback_imem (s : State) (p : Option (RegNum × Word)) : (s.writeback p).imem = s.imem := by
  cases p <;> rfl
@[simp] theorem State.writeback_dmem (s : State) (p : Option (RegNum × Word)) : (s.writeback p).dmem = s.dmem := by
  cases p <;> rfl

/-- The Writeback Unit leaves every register but the port's as it was. -/
theorem State.reg_writeback_ne (s : State) (p : Option (RegNum × Word)) (r : RegNum)
    (h : ∀ q v, p = some (q, v) → r ≠ q) : (s.writeback p).reg r = s.reg r := by
  cases p with
  | none => rfl
  | some qv => exact State.reg_setReg_ne s qv.2 (h qv.1 qv.2 rfl)

end Sys2Proof.Machine
end

