-- ==== Sys2Proof/Laws/Units.lean ====
section
/-! SUPPORT. What each unit can do, said once (40_datapath_units.md). -/

namespace Sys2Proof.Machine

/-! ## Control Unit -/

theorem control_eq_some {opcode funct : Code6} {c : ControlVector} :
    control opcode funct = some c ↔ legalPair opcode funct = true ∧ c = deriveControl opcode funct := by
  cases h : legalPair opcode funct <;> simp [control, h, @eq_comm _ c]

theorem control_eq_none {opcode funct : Code6} : control opcode funct = none ↔ legalPair opcode funct = false := by
  simp [control]

/-! ## ALU -/

theorem aluSlt_wrapdiff (a b : Word) :
    aluSlt a b = if (a - b).msb then { result := 1, zero := false } else { result := 0, zero := true } := rfl

/-- The shift amount of `sll` is the field itself. -/
theorem aluAnd_shift_zext32 (a : Word) (n : Shamt) : aluAnd true a (zext32 n) = a <<< n.toNat := by
  have h : (zext32 n).extractLsb' 0 5 = n := by
    refine BitVec.eq_of_getLsbD_eq fun i hi => ?_
    simp [zext32, BitVec.getLsbD_setWidth, hi]
    omega
  simp [aluAnd, h]

/-! ## Memory Unit -/

/-- Every outcome of the Memory Unit. -/
theorem memoryUnit_eq_some {c : ControlVector} {a v : Word} {m : Memory} {r : MemoryResult} :
    memoryUnit c a v m = some r ↔
      (c.memRead = true ∧ wordIndex a < m.words ∧ r = ⟨m, m.word (wordIndex a)⟩) ∨
      (c.memRead = false ∧ c.memWrite = true ∧ wordIndex a < m.words ∧ r = ⟨m.setWord (wordIndex a) v, 0⟩) ∨
      (c.memRead = false ∧ c.memWrite = false ∧ r = ⟨m, 0⟩) := by
  cases hr : c.memRead <;> cases hw : c.memWrite <;> by_cases hk : wordIndex a < m.words <;>
    simp [memoryUnit, Memory.load, Memory.store, hr, hw, hk, eq_comm]

theorem memoryUnit_eq_none {c : ControlVector} {a v : Word} {m : Memory} :
    memoryUnit c a v m = none ↔ (c.memRead = true ∨ c.memWrite = true) ∧ m.words ≤ wordIndex a := by
  cases hr : c.memRead <;> cases hw : c.memWrite <;> by_cases hk : wordIndex a < m.words <;>
    simp [memoryUnit, Memory.load, Memory.store, hr, hw, hk, Nat.not_le.mpr, Nat.le_of_not_lt]

/-- The Memory Unit keeps the size of the data memory and its canonical form. -/
theorem memoryUnit_keeps {c : ControlVector} {a v : Word} {m : Memory} {r : MemoryResult}
    (h : memoryUnit c a v m = some r) : r.dmem.words = m.words ∧ (m.wf = true → r.dmem.wf = true) := by
  obtain ⟨-, -, rfl⟩ | ⟨-, -, hk, rfl⟩ | ⟨-, -, rfl⟩ := memoryUnit_eq_some.mp h
  · exact ⟨rfl, id⟩
  · exact ⟨rfl, fun hm => Memory.wf_setWord v hm hk⟩
  · exact ⟨rfl, id⟩

/-! ## The units together -/

/-- What a cycle that completes has done. -/
theorem runWith_eq_next {c : ControlVector} {f : Fields} {s t : State} :
    runWith c f s = .next t ↔
      ∃ m, memoryUnit c (aluOutput c f s).result (s.reg f.rt) s.dmem = some m ∧
        t = ((s.writeback (writebackPort c f (aluOutput c f s).result m.data)).setDmem m.dmem).setPc
          (pcUnit s.pc f c (aluOutput c f s).zero) := by
  cases hm : memoryUnit c (aluOutput c f s).result (s.reg f.rt) s.dmem <;> simp [runWith, raise, hm, @eq_comm _ t]

/-- When a cycle faults after the Control Unit: only on a data access out of range (60_exceptions.md R163). -/
theorem runWith_eq_fault {c : ControlVector} {f : Fields} {s : State} {r : Fault} :
    runWith c f s = .fault r ↔
      memoryUnit c (aluOutput c f s).result (s.reg f.rt) s.dmem = none ∧
        r = .dataOutOfRange (aluOutput c f s).result s.pc := by
  cases hm : memoryUnit c (aluOutput c f s).result (s.reg f.rt) s.dmem <;> simp [runWith, raise, hm, @eq_comm _ r]

theorem runWith_not_refused (c : ControlVector) (f : Fields) (s : State) (r : Refusal) : runWith c f s ≠ .refused r := by
  simp only [runWith]
  split <;> simp [raise]

end Sys2Proof.Machine
end

