-- ==== Sys2Proof/Laws/Step.lean ====
section
/-! SUPPORT. What `exec` and `step` can do, said once. -/

namespace Sys2Proof.Machine

/-- Every meaning is the units run on the instruction's fields. -/
theorem exec_eq_runUnits (i : Instr) (s : State) : exec i s = runUnits i.fields s := by
  cases i <;> rfl

/-- A completed instruction leaves the instruction memory and the size of the data memory alone, and keeps the
canonical form of the data memory. -/
theorem exec_next_memories {i : Instr} {s t : State} (h : exec i s = .next t) :
    t.imem = s.imem ∧ t.dmem.words = s.dmem.words ∧ (s.dmem.wf = true → t.dmem.wf = true) := by
  rw [exec_eq_runUnits] at h
  obtain ⟨m, hm, rfl⟩ := runWith_eq_next.mp h
  exact ⟨by simp, by simpa using memoryUnit_keeps hm⟩

/-- When an instruction is fetched, and which. -/
theorem fetchInstr_eq_next {s : State} {i : Instr} :
    fetchInstr s = .next i ↔ pcAligned s.pc = true ∧ ∃ w, s.imem.load s.pc = some w ∧ decode w = .ok i := by
  simp only [fetchInstr, fetchWord]
  cases pcAligned s.pc <;> cases s.imem.load s.pc <;> simp [raise]
  split <;> simp_all

/-- A completed step ran an instruction it fetched and decoded. -/
theorem step_eq_next {s t : State} :
    step s = .next t ↔
      ∃ w i, pcAligned s.pc = true ∧ s.imem.load s.pc = some w ∧ decode w = .ok i ∧ exec i s = .next t := by
  simp only [step]
  split
  · next i hi =>
    obtain ⟨ha, w, hw, hd⟩ := fetchInstr_eq_next.mp hi
    constructor
    · exact fun h => ⟨w, i, ha, hw, hd, h⟩
    · rintro ⟨w', i', -, hw', hd', h⟩
      rw [hw] at hw'
      cases hw'
      rw [hd] at hd'
      cases hd'
      exact h
  all_goals
    next hr =>
    constructor
    · intro h; cases h
    · rintro ⟨w, i, ha, hw, hd, -⟩
      rw [fetchInstr_eq_next.mpr ⟨ha, w, hw, hd⟩] at hr
      cases hr

/-- Alignment said of bits and of numbers. -/
theorem pcAligned_iff {pc : Word} : pcAligned pc = true ↔ pc.toNat % 4 = 0 := by
  simp only [pcAligned, beq_iff_eq, ← BitVec.toNat_inj, BitVec.extractLsb'_toNat, Nat.shiftRight_zero]
  simp

end Sys2Proof.Machine
end

