-- ==== Sys2Proof/Tests/Slice0.lean ====
section
/-! SUPPORT. Small tests. Expected values are the spec's: the encodings of 30_encoding.md written out bit by bit, the
examples of files 41 to 45 and the vectors of 95_test_vectors.md, named in each comment; the tests of the checks in
WellFormed.lean; and, in the last section, a witness that meets the hypotheses of each obligation that has some. -/

namespace Sys2Proof.Tests

open Sys2Proof.Machine

/-! ## The checks of WellFormed.lean refuse ill-formed data -/

theorem test_wf_imm16_not_a_slice : Fields.wellFormed { Fields.ofWord 0x00221820 with imm16 := 7, simm32 := 7, addr26 := 0x0220007 } = false := by decide
theorem test_wf_simm32_not_extended : Fields.wellFormed { Fields.ofWord 0x8D09FFF8 with simm32 := 0x0000FFF8 } = false := by decide
theorem test_wf_addr26_not_a_slice : Fields.wellFormed { Fields.ofWord 0x08000010 with addr26 := 0x11 } = false := by decide
theorem test_wf_illegal_opcode : legalPair 1 0 = false := by decide
theorem test_wf_illegal_funct : legalPair 0 39 = false := by decide
theorem test_wf_read_and_write : ControlVector.wellFormed { deriveControl 35 0 with memWrite := true } = false := by decide
theorem test_wf_branch_and_jump : ControlVector.wellFormed { deriveControl 4 0 with jump := true } = false := by decide
theorem test_wf_memory_to_no_register : ControlVector.wellFormed { deriveControl 35 0 with regWrite := false } = false := by decide
theorem test_wf_branch_writes : ControlVector.wellFormed { deriveControl 5 0 with regWrite := true } = false := by decide
theorem test_wf_accepts_slt : Instr.wellFormed (.slt 9 10 11 0) = true := by decide

/-! ## Decoding: every constructor's word, written out from R52, R53, R54, R60, R61 -/

theorem test_decode_sll : decode 0b000000_00000_00010_00011_00100_000000#32 = .ok (.sll 0 2 3 4) := by decide
theorem test_decode_add : decode 0b000000_00001_00010_00011_00000_100000#32 = .ok (.add 1 2 3 0) := by decide
theorem test_decode_addu : decode 0b000000_00001_00010_00011_00000_100001#32 = .ok (.addu 1 2 3 0) := by decide
theorem test_decode_sub : decode 0b000000_00001_00010_00011_00000_100010#32 = .ok (.sub 1 2 3 0) := by decide
theorem test_decode_subu : decode 0b000000_00001_00010_00011_00000_100011#32 = .ok (.subu 1 2 3 0) := by decide
theorem test_decode_and : decode 0b000000_00001_00010_00011_00000_100100#32 = .ok (.and 1 2 3 0) := by decide
theorem test_decode_or : decode 0b000000_00001_00010_00011_00000_100101#32 = .ok (.or 1 2 3 0) := by decide
theorem test_decode_xor : decode 0b000000_00001_00010_00011_00000_100110#32 = .ok (.xor 1 2 3 0) := by decide
theorem test_decode_slt : decode 0b000000_01001_01010_01011_00000_101010#32 = .ok (.slt 9 10 11 0) := by decide
theorem test_decode_j : decode 0b000010_00000000000000000000010000#32 = .ok (.j 0x10) := by decide
theorem test_decode_beq : decode 0b000100_00001_00010_0000000000000011#32 = .ok (.beq 1 2 3) := by decide
theorem test_decode_bne : decode 0b000101_00101_00000_1111111111111110#32 = .ok (.bne 5 0 0xFFFE) := by decide
theorem test_decode_addi : decode 0b001000_00001_00011_1111111111111111#32 = .ok (.addi 1 3 0xFFFF) := by decide
theorem test_decode_addiu : decode 0b001001_00001_00011_1111111111111111#32 = .ok (.addiu 1 3 0xFFFF) := by decide
theorem test_decode_slti : decode 0b001010_00001_00010_1111111111111011#32 = .ok (.slti 1 2 0xFFFB) := by decide
theorem test_decode_andi : decode 0b001100_00001_00010_1111111111111111#32 = .ok (.andi 1 2 0xFFFF) := by decide
theorem test_decode_lw : decode 0b100011_01000_01001_1111111111111000#32 = .ok (.lw 8 9 0xFFF8) := by decide
theorem test_decode_sw : decode 0b101011_00001_00010_0000000000001100#32 = .ok (.sw 1 2 0x000C) := by decide

/-- V-D3's row of nine fields. -/
theorem test_fields_VD3 : Fields.ofWord 0x012A582A = ⟨0, 9, 10, 11, 0, 42, 0x582A, 0x0000582A, 0x12A582A⟩ := by decide
/-- V-D6's row of nine fields. -/
theorem test_fields_VD6 : Fields.ofWord 0x14A0FFFE = ⟨5, 5, 0, 31, 31, 62, 0xFFFE, 0xFFFFFFFE, 0x0A0FFFE⟩ := by decide
/-- V-D2, V-D8, V-D11, V-D12, V-D15. -/
theorem test_decode_illegal_opcodes :
    [0xFFFFFFFF, 0x04000000, 0x3C011234, 0x0C000010, 0x2C000000].map decode =
      [.error (.illegalOpcode 63), .error (.illegalOpcode 1), .error (.illegalOpcode 15), .error (.illegalOpcode 3),
        .error (.illegalOpcode 11)] := by decide
/-- V-D9, V-D10, V-D13, V-D14. -/
theorem test_decode_illegal_functs :
    [0x0000000C, 0x00000027, 0x0000001F, 0x0000002B].map decode =
      [.error (.illegalFunct 12), .error (.illegalFunct 39), .error (.illegalFunct 31), .error (.illegalFunct 43)] := by
  decide
theorem test_decode_bytes_truncated : decodeBytes [0x20, 0x18, 0x22] = .error .truncated := by decide
theorem test_decode_bytes_rest : decodeBytes [0x20, 0x18, 0x22, 0x00, 0xFF] = .ok (.add 1 2 3 0, [0xFF]) := by decide

/-! ## The Control Unit: R86's rows for `sll`, `slti`, `lw`, `sw`, `bne` and `j` -/

theorem test_control_sll : control 0 0 = some ⟨true, false, .and, false, false, false, false, false, false, true, true⟩ := by decide
theorem test_control_slti : control 10 63 = some ⟨false, true, .slt, true, false, false, false, false, false, false, true⟩ := by decide
theorem test_control_lw : control 35 0 = some ⟨false, true, .add, false, false, false, true, false, true, false, true⟩ := by decide
theorem test_control_sw : control 43 0 = some ⟨false, true, .add, false, false, false, false, true, false, false, false⟩ := by decide
theorem test_control_bne : control 5 0 = some ⟨false, false, .add, true, true, false, false, false, false, false, false⟩ := by decide
theorem test_control_j : control 2 0 = some ⟨false, false, .and, false, false, true, false, false, false, false, false⟩ := by decide

/-! ## The ALU: V-A8, V-A9, V-A16, V-A19, V-A20, V-A24 -/

theorem test_alu_VA8 : alu .and false true 0x80000003 4 = ⟨0x30, false⟩ := by decide
theorem test_alu_VA9 : alu .and false true 1 0x1F = ⟨0x80000000, false⟩ := by decide
theorem test_alu_VA16 : alu .slt true false 1 0xFFFFFFFF = ⟨0, true⟩ := by decide
theorem test_alu_VA19 : alu .slt true false 0x80000000 0 = ⟨1, false⟩ := by decide
theorem test_alu_VA20 : alu .slt true false 0x80000000 1 = ⟨0, true⟩ := by decide
theorem test_alu_VA24 : alu .slt true false 0 0x80000000 = ⟨1, false⟩ := by decide

/-! ## One cycle each: 95_test_vectors.md section 2.4 -/

/-- The start state of section 2.4. -/
def start : State where
  x    := ((Vector.replicate 32 0).set 1 5).set 2 7
  pc   := 0x100
  imem := Memory.empty 128
  dmem := Memory.fill (Memory.empty 8) 0 [0x1000, 0x1001, 0x1002, 0x1003, 0x1004, 0x1005, 0x1006, 0x1007]

/-- The start state with two other registers. -/
def startWith (x1 x2 : Word) : State := (start.setReg 1 x1).setReg 2 x2

/-- The cycle that runs a word from a state. -/
def run (s : State) (w : Nat) : Result := step (s.withFetchWord 32 w)

/-- A register and the `pc` after a completed cycle. -/
def regAndPc (r : RegNum) (o : Result) : Option (Word × Word) :=
  match o with
  | .next t    => some (t.reg r, t.pc)
  | .fault _   => none
  | .refused _ => none

/-- A word of data memory and the `pc` after a completed cycle. -/
def wordAndPc (k : Nat) (o : Result) : Option (Word × Word) :=
  match o with
  | .next t    => some (t.dmem.word k, t.pc)
  | .fault _   => none
  | .refused _ => none

/-- The fault of a cycle. -/
def faultOf (o : Result) : Option Fault :=
  match o with
  | .next _    => none
  | .fault r   => some r
  | .refused _ => none

/-- V-RT13. -/
theorem test_add_wraps : regAndPc 3 (run (startWith 0x7FFFFFFF 1) 0x00221820) = some (0x80000000, 0x104) := by decide
/-- V-RT11: register 0 is written. -/
theorem test_add_writes_register_0 : regAndPc 0 (run start 0x00220020) = some (0xC, 0x104) := by decide
/-- R121's example. -/
theorem test_addu : regAndPc 3 (run (startWith 0xFFFFFFFF 2) 0x00221821) = some (1, 0x104) := by decide
/-- V-RT3. -/
theorem test_sub : regAndPc 3 (run start 0x00221822) = some (0xFFFFFFFE, 0x104) := by decide
/-- R123's example. -/
theorem test_subu : regAndPc 3 (run (startWith 7 5) 0x00221823) = some (2, 0x104) := by decide
/-- R124's example. -/
theorem test_and : regAndPc 3 (run (startWith 0xF0F0F0F0 0x0FF00FF0) 0x00221824) = some (0x00F000F0, 0x104) := by decide
/-- R125's example. -/
theorem test_or : regAndPc 3 (run (startWith 0xF0F0F0F0 0x0FF00FF0) 0x00221825) = some (0xFFF0FFF0, 0x104) := by decide
/-- R126's example. -/
theorem test_xor : regAndPc 3 (run (startWith 0xF0F0F0F0 0x0FF00FF0) 0x00221826) = some (0xFF00FF00, 0x104) := by decide
/-- R127's example. -/
theorem test_slt : regAndPc 3 (run (startWith 0xFFFFFFFF 1) 0x0022182A) = some (1, 0x104) := by decide
/-- R130's example. -/
theorem test_sll : regAndPc 3 (run (startWith 0 0x80000003) 0x00021900) = some (0x30, 0x104) := by decide
/-- V-S2: the destination is the source. -/
theorem test_sll_in_place : regAndPc 2 (run start 0x000217C0) = some (0x80000000, 0x104) := by decide
/-- V-I9. -/
theorem test_addi_in_place : regAndPc 1 (run start 0x2021FFFF) = some (4, 0x104) := by decide
/-- V-I2. -/
theorem test_addiu : regAndPc 3 (run start 0x2423FFFF) = some (4, 0x104) := by decide
/-- R137's example. -/
theorem test_slti : regAndPc 2 (run (startWith 0xFFFFFFF6 0) 0x2822FFFB) = some (1, 0x104) := by decide
/-- V-I6. -/
theorem test_slti_signed : regAndPc 3 (run start 0x2823FFFF) = some (0, 0x104) := by decide
/-- V-I8. -/
theorem test_andi : regAndPc 3 (run (startWith 0xFFFF1234 0) 0x3023FFFF) = some (0x1234, 0x104) := by decide
/-- V-M2, misaligned without a fault, and V-M4, where the base is the destination. -/
theorem test_lw : (regAndPc 3 (run start 0x8C230000), regAndPc 1 (run start 0x8C21000B)) = (some (0x1001, 0x104), some (0x1004, 0x104)) := by decide
/-- V-M6: misaligned, the whole word is replaced and the next is not. -/
theorem test_sw : (wordAndPc 1 (run start 0xAC220002), wordAndPc 2 (run start 0xAC220002)) = (some (7, 0x104), some (0x1002, 0x104)) := by decide
/-- V-M7. -/
theorem test_lw_out_of_range : faultOf (run start 0x8C23001B) = some (.dataOutOfRange 0x20 0x100) := by decide
/-- V-M8. -/
theorem test_sw_out_of_range : faultOf (run start 0xAC22FFFA) = some (.dataOutOfRange 0xFFFFFFFF 0x100) := by decide
/-- V-C1 and V-C5. -/
theorem test_beq : (regAndPc 0 (run start 0x10220003), regAndPc 0 (run start 0x1021FFFF)) = (some (0, 0x104), some (0, 0x100)) := by decide
/-- V-C8: the target wraps past the top. -/
theorem test_beq_wraps : regAndPc 0 (exec (.beq 1 1 1) (start.setPc 0xFFFFFFFC)) = some (0, 4) := by decide
/-- V-C6 and V-C4. -/
theorem test_bne : (regAndPc 0 (run start 0x1422FFFE), regAndPc 0 (run start 0x14210003)) = (some (0, 0xFC), some (0, 0x104)) := by decide
/-- V-C11: the high bits of the old `pc`. -/
theorem test_j_old_pc : regAndPc 0 (exec (.j 0x10) (start.setPc 0x0FFFFFFC)) = some (0, 0x40) := by decide
/-- V-C12. -/
theorem test_j_all_ones : regAndPc 0 (exec (.j 0x3FFFFFF) (start.setPc 0x10000000)) = some (0, 0x1FFFFFFC) := by decide

/-! ## Faults: V-F1, V-F2, V-F4 -/

theorem test_illegal_word : faultOf (run start 0xFFFFFFFF) = some (.illegalInstruction 0xFFFFFFFF 0x100) := by decide
theorem test_fetch_out_of_range : faultOf (step (start.setPc 0x200)) = some (.fetchOutOfRange 0x200) := by decide
theorem test_launch_refused : launch { Launch.default with resetPc := 2 } = .refused (.misalignedPc 2) := by rfl
theorem test_fault_codes :
    [Fault.illegalInstruction 0 0, .fetchOutOfRange 0, .dataOutOfRange 0 0].map Fault.code = [1, 2, 3] := by decide

/-! ## Witnesses: states and operands that meet the hypotheses of the obligations that have some -/

/-- `start` with a program of one word at its `pc`. -/
def startAt (w : Nat) : State := start.withFetchWord 32 w

/-- A completed cycle's state; `start` where the cycle stops. -/
def after (o : Result) : State :=
  match o with
  | .next t    => t
  | .fault _   => start
  | .refused _ => start

theorem witness_EncodeOfDecodeIsIdentity : decode 0x00221FE0 = .ok (.add 1 2 3 31) := by decide
/-- Every clause, with every bit the mask leaves open set. -/
theorem witness_MatchAndMaskSelectInstruction :
    (0x03FFFFC0 &&& 0xFC00003F = (0x00000000 : Word)) ∧ (0x03FFFFE0 &&& 0xFC00003F = (0x00000020 : Word)) ∧
    (0x03FFFFE1 &&& 0xFC00003F = (0x00000021 : Word)) ∧ (0x03FFFFE2 &&& 0xFC00003F = (0x00000022 : Word)) ∧
    (0x03FFFFE3 &&& 0xFC00003F = (0x00000023 : Word)) ∧ (0x03FFFFE4 &&& 0xFC00003F = (0x00000024 : Word)) ∧
    (0x03FFFFE5 &&& 0xFC00003F = (0x00000025 : Word)) ∧ (0x03FFFFE6 &&& 0xFC00003F = (0x00000026 : Word)) ∧
    (0x03FFFFEA &&& 0xFC00003F = (0x0000002A : Word)) ∧ (0x0BFFFFFF &&& 0xFC000000 = (0x08000000 : Word)) ∧
    (0x13FFFFFF &&& 0xFC000000 = (0x10000000 : Word)) ∧ (0x17FFFFFF &&& 0xFC000000 = (0x14000000 : Word)) ∧
    (0x23FFFFFF &&& 0xFC000000 = (0x20000000 : Word)) ∧ (0x27FFFFFF &&& 0xFC000000 = (0x24000000 : Word)) ∧
    (0x2BFFFFFF &&& 0xFC000000 = (0x28000000 : Word)) ∧ (0x33FFFFFF &&& 0xFC000000 = (0x30000000 : Word)) ∧
    (0x8FFFFFFF &&& 0xFC000000 = (0x8C000000 : Word)) ∧ (0xAFFFFFFF &&& 0xFC000000 = (0xAC000000 : Word)) := by decide
/-- R130's pair `0x03E21900`, `0x00021900`. -/
theorem witness_IgnoredFieldsChangeNothing :
    (Fields.ofWord 0x03E21900).opcode = 0 ∧ (Fields.ofWord 0x00021900).opcode = 0 ∧
    (Fields.ofWord 0x03E21900).funct = (Fields.ofWord 0x00021900).funct ∧
    (Fields.ofWord 0x03E21900).rt = (Fields.ofWord 0x00021900).rt ∧
    (Fields.ofWord 0x03E21900).rd = (Fields.ofWord 0x00021900).rd ∧
    ((Fields.ofWord 0x03E21900).funct = 0 → (Fields.ofWord 0x03E21900).shamt = (Fields.ofWord 0x00021900).shamt) ∧
    ((Fields.ofWord 0x03E21900).funct ≠ 0 → (Fields.ofWord 0x03E21900).rs = (Fields.ofWord 0x00021900).rs) ∧
    decode 0x03E21900 = .ok (.sll 31 2 3 4) := by decide
/-- V-RT1 and V-RT12. -/
theorem witness_IgnoredFieldsChangeNothing_shamt :
    (Fields.ofWord 0x00221820).opcode = 0 ∧ (Fields.ofWord 0x00221FE0).opcode = 0 ∧
    (Fields.ofWord 0x00221820).funct = (Fields.ofWord 0x00221FE0).funct ∧
    (Fields.ofWord 0x00221820).rt = (Fields.ofWord 0x00221FE0).rt ∧
    (Fields.ofWord 0x00221820).rd = (Fields.ofWord 0x00221FE0).rd ∧
    ((Fields.ofWord 0x00221820).funct = 0 → (Fields.ofWord 0x00221820).shamt = (Fields.ofWord 0x00221FE0).shamt) ∧
    ((Fields.ofWord 0x00221820).funct ≠ 0 → (Fields.ofWord 0x00221820).rs = (Fields.ofWord 0x00221FE0).rs) ∧
    decode 0x00221820 = .ok (.add 1 2 3 0) := by decide
theorem witness_ControlSignalsFollowTheirRules : control 0 42 = some (deriveControl 0 42) := by decide
theorem witness_ControlFailsExactlyOnIllegalPairs :
    (startAt 0x00000027).pc.toNat % 4 = 0 ∧ (startAt 0x00000027).imem.load (startAt 0x00000027).pc = some 0x00000027 ∧
    control (Fields.ofWord 0x00000027).opcode (Fields.ofWord 0x00000027).funct = none := by decide
/-- A load, a branch and a jump. -/
theorem witness_ControlSignalsNeverConflict :
    (control 35 0 = some (deriveControl 35 0) ∧ (deriveControl 35 0).memToReg = true) ∧
    (control 4 0 = some (deriveControl 4 0) ∧ (deriveControl 4 0).branch = true) ∧
    (control 2 0 = some (deriveControl 2 0) ∧ (deriveControl 2 0).jump = true) := by decide
/-- `andi`, `sw` and `beq`. -/
theorem witness_OperandTwoIsImmediateExactlyUnderAluSrc :
    (control 12 0 = some (deriveControl 12 0) ∧ (deriveControl 12 0).shift = false ∧ (deriveControl 12 0).aluSrc = true) ∧
    (control 43 0 = some (deriveControl 43 0) ∧ (deriveControl 43 0).shift = false ∧ (deriveControl 43 0).aluSrc = true) ∧
    (control 4 0 = some (deriveControl 4 0) ∧ (deriveControl 4 0).shift = false ∧ (deriveControl 4 0).aluSrc = false) := by
  decide
/-- The exact differences -2^31, 2^31 - 1, -2^31 - 1 and 2^31 (V-A19, V-A20, V-A24). -/
theorem witness_SltIsSignedOutsideTheBand :
    (-2 ^ 31 ≤ (0x80000000 : Word).toInt - (0 : Word).toInt ∧ (0x80000000 : Word).toInt - (0 : Word).toInt ≤ 2 ^ 31 - 1) ∧
    (-2 ^ 31 ≤ (0x7FFFFFFF : Word).toInt - (0 : Word).toInt ∧ (0x7FFFFFFF : Word).toInt - (0 : Word).toInt ≤ 2 ^ 31 - 1) ∧
    (0x80000000 : Word).toInt - (1 : Word).toInt < -2 ^ 31 ∧
    2 ^ 31 - 1 < (0 : Word).toInt - (0x80000000 : Word).toInt := by decide
theorem witness_WritebackIsOneWritePort :
    control (Instr.fields (.lw 1 3 0)).opcode (Instr.fields (.lw 1 3 0)).funct = some (deriveControl 35 0) := by decide
/-- The last byte of the last word. -/
theorem witness_LwLoadsTheWord : (start.reg 1 + (26 : Imm16).signExtend 32).toNat / 4 < start.dmem.words := by decide
theorem witness_SwStoresTheWord : (start.reg 1 + (26 : Imm16).signExtend 32).toNat / 4 < start.dmem.words := by decide
/-- The byte after it, and the highest address (V-M7, V-M8). -/
theorem witness_DataAccessOutOfRangeFaults :
    start.dmem.words ≤ (start.reg 1 + (27 : Imm16).signExtend 32).toNat / 4 ∧
    start.dmem.words ≤ (start.reg 1 + (0xFFFA : Imm16).signExtend 32).toNat / 4 := by decide
/-- `add $0, $1, $2`: the destination is register 0, register 1 is another, and it is no `sw`. -/
theorem witness_InstructionFrame :
    (exec (.add 1 2 0 0) start = .next (after (exec (.add 1 2 0 0) start)) ∧ Instr.dest (.add 1 2 0 0) ≠ some 1) ∧
    ∀ rs rt imm, Instr.add 1 2 0 0 ≠ .sw rs rt imm :=
  ⟨⟨rfl, by decide⟩, fun _ _ _ h => by cases h⟩
/-- V-M6; byte 3 lies below the word stored to and byte 8 above it. -/
theorem witness_SwFrame :
    exec (.sw 1 2 2) start = .next (after (exec (.sw 1 2 2) start)) ∧ start.effectiveAddress 1 2 = 7 ∧
    (3 < 4 * ((7 : Word).toNat / 4) ∧ 4 * ((7 : Word).toNat / 4) + 4 ≤ 8) :=
  ⟨rfl, by decide, by decide⟩
/-- A taken and an untaken branch, a jump, and an instruction of no transfer. -/
theorem witness_NextPcOfEveryInstruction :
    (exec (.beq 1 1 3) start = .next (after (exec (.beq 1 1 3) start)) ∧ start.reg 1 = start.reg 1) ∧
    (exec (.bne 1 1 3) start = .next (after (exec (.bne 1 1 3) start)) ∧ start.reg 1 = start.reg 1) ∧
    exec (.j 0x10) start = .next (after (exec (.j 0x10) start)) ∧
    exec (.sw 1 2 2) start = .next (after (exec (.sw 1 2 2) start)) :=
  ⟨⟨rfl, rfl⟩, ⟨rfl, rfl⟩, rfl, rfl⟩
theorem witness_JumpIgnoresRegisters : start.pc = (startWith 8 9).pc ∧ start ≠ startWith 8 9 := by decide
/-- The highest byte of the highest word. -/
theorem witness_FourAddressesNameOneWord :
    3 < 4 ∧ 4 * (2 ^ 30 - 1) + 3 < 2 ^ 32 ∧ 2 ^ 30 - 1 < (Memory.empty (2 ^ 30)).words := by decide
theorem witness_WordReadsWhatWasStored :
    start.dmem.wf = true ∧ 7 < start.dmem.words ∧ 6 ≠ 7 ∧ (27 < 4 * 7 ∧ 4 * 7 + 4 ≤ 32) := by decide
/-- `sw $2, 2($1)` then a load of the aligned address of the same word. -/
theorem witness_LoadSeesTheStoreBeforeIt :
    start.dmem.wf = true ∧ exec (.sw 1 2 2) start = .next (after (exec (.sw 1 2 2) start)) ∧
    ((after (exec (.sw 1 2 2) start)).effectiveAddress 0 4).toNat / 4 = (start.effectiveAddress 1 2).toNat / 4 :=
  ⟨by decide, rfl, by decide⟩
theorem witness_NoStepWritesInstructionMemory :
    step (startAt 0xAC220002) = .next (after (step (startAt 0xAC220002))) := rfl
theorem witness_StepRunsTheDecodedInstruction :
    (startAt 0x00221820).pc.toNat % 4 = 0 ∧ (startAt 0x00221820).imem.load (startAt 0x00221820).pc = some 0x00221820 ∧
    decode 0x00221820 = .ok (.add 1 2 3 0) := by decide
/-- The first address past the instruction memory. -/
theorem witness_FetchOutOfRangeFaults :
    (start.setPc 0x200).pc.toNat % 4 = 0 ∧ (start.setPc 0x200).imem.words ≤ (start.setPc 0x200).pc.toNat / 4 := by decide
theorem witness_IllegalWordFaults :
    (startAt 0x04000000).pc.toNat % 4 = 0 ∧ (startAt 0x04000000).imem.load (startAt 0x04000000).pc = some 0x04000000 ∧
    legalPair (Fields.ofWord 0x04000000).opcode (Fields.ofWord 0x04000000).funct = false := by decide
theorem witness_MisalignedPcIsRefused :
    (start.setPc 0x102).pc.toNat % 4 ≠ 0 ∧ (Launch.resetPc { Launch.default with resetPc := 2 }).toNat % 4 ≠ 0 := by decide
theorem witness_ZeroWordIsANoOp : start.pc.toNat % 4 = 0 ∧ start.imem.load start.pc = some 0 := by decide
theorem witness_PlacedWordRunsNext :
    start.imem.wf = true ∧ decode (BitVec.ofNat 32 0x08000010) = .ok (.j 0x10) := by decide
theorem witness_StepKeepsTheInvariant :
    (startAt 0xAC220002).Inv ∧ step (startAt 0xAC220002) = .next (after (step (startAt 0xAC220002))) :=
  ⟨by decide, rfl⟩
/-- A launch with a two-word image and one word of data. -/
def smallLaunch : Launch where
  imemWords := 2
  dmemWords := 1
  image     := [0x20210001, 0x08000000]
  data      := [0xDEADBEEF]
  x0        := Vector.replicate 32 0
  resetPc   := 4
theorem witness_LaunchMakesTheStateSupplied :
    smallLaunch.resetPc.toNat % 4 = 0 ∧ 1 ≤ smallLaunch.imemWords ∧ smallLaunch.imemWords ≤ 2 ^ 30 ∧
    smallLaunch.dmemWords ≤ 2 ^ 30 ∧ smallLaunch.image.length ≤ smallLaunch.imemWords ∧
    smallLaunch.data.length ≤ smallLaunch.dmemWords := by decide
/-- The run of V-F2's shape: one completed cycle, then a fetch outside the image. -/
theorem witness_FaultedRunKeepsItsState :
    runCycles 2 ((start.setPc 0x1FC).withFetchWord 32 0) =
      .faulted (.fetchOutOfRange 0x200) (after (step ((start.setPc 0x1FC).withFetchWord 32 0))) := rfl

end Sys2Proof.Tests
end

section
/-! PROOFS. What the units do under opcode 0, and the fields that R-type instructions ignore (30_encoding.md R59). -/

namespace Sys2Proof.Machine

/-! ## The units on an R-type instruction -/

/-- R89, R90: a shift takes `x[rt]` and the shift amount field. -/
theorem aluOutput_of_shift {c : ControlVector} (f : Fields) (s : State) (h : c.shift = true) :
    aluOutput c f s = alu c.aluOp c.bNegate true (s.reg f.rt) (zext32 f.shamt) := by
  simp [aluOutput, selectIn1, selectIn2, h]

/-- R89, R90: an R-type instruction that is not a shift takes `x[rs]` and `x[rt]`. -/
theorem aluOutput_of_regDst {c : ControlVector} (f : Fields) (s : State) (h : c.shift = false) (hd : c.regDst = true) :
    aluOutput c f s = alu c.aluOp c.bNegate false (s.reg f.rs) (s.reg f.rt) := by
  simp [aluOutput, selectIn1, selectIn2, h, hd]

/-- R101: under opcode 0 the Memory Unit does nothing. -/
theorem memoryUnit_rType (funct : Code6) (a v : Word) (m : Memory) :
    memoryUnit (deriveControl 0 funct) a v m = some ⟨m, 0⟩ :=
  memoryUnit_eq_some.mpr (.inr (.inr ⟨rfl, rfl, rfl⟩))

/-- R102: under opcode 0 the next `pc` is the sequential one. -/
theorem pcUnit_rType (pc : Word) {f : Fields} (h : f.opcode = 0) (zero : Bool) :
    pcUnit pc f (deriveControl 0 f.funct) zero = pc + 4 := by
  simp [pcUnit, deriveControl, h]

/-- R103: under opcode 0 the write port writes the ALU's result to `rd`. -/
theorem writebackPort_rType {f : Fields} (h : f.opcode = 0) (res memData : Word) :
    writebackPort (deriveControl 0 f.funct) f res memData = some (f.rd, res) := by
  simp [writebackPort, deriveControl, h]

/-- The whole next state of a cycle under opcode 0. -/
theorem runUnits_rType {f : Fields} (h : f.opcode = 0) (s : State) :
    runUnits f s =
      .next ((s.setReg f.rd (aluOutput (deriveControl 0 f.funct) f s).result).setPc (s.pc + 4)) := by
  rw [runUnits, h]
  refine runWith_eq_next.mpr ⟨_, memoryUnit_rType .., ?_⟩
  rw [writebackPort_rType h, pcUnit_rType s.pc h]
  rfl

/-! ## Ignored fields -/

/-- R59: the ALU sees `rs` only when the function code is not 0, and `shamt` only when it is. -/
theorem aluOutput_rType_congr {f f' : Fields} (s : State) (hfn : f.funct = f'.funct) (hrt : f.rt = f'.rt)
    (hsh : f.funct = 0 → f.shamt = f'.shamt) (hrs : f.funct ≠ 0 → f.rs = f'.rs) :
    aluOutput (deriveControl 0 f.funct) f s = aluOutput (deriveControl 0 f'.funct) f' s := by
  rw [← hfn]
  by_cases h0 : f.funct = 0
  · have hshift : (deriveControl 0 f.funct).shift = true := by simp [deriveControl, h0]
    rw [aluOutput_of_shift f s hshift, aluOutput_of_shift f' s hshift, hrt, hsh h0]
  · have hshift : (deriveControl 0 f.funct).shift = false := by simpa [deriveControl] using h0
    rw [aluOutput_of_regDst f s hshift rfl, aluOutput_of_regDst f' s hshift rfl, hrt, hrs h0]

/-- Settles O7: the second word's codes are the first's, so it is legal too; each instruction is the units run on its
word's fields, and under opcode 0 these read no ignored field. -/
theorem ignoredFieldsChangeNothing : Obligations.IgnoredFieldsChangeNothing := by
  intro w w' i hop hop' hfn hrt hrd hsh hrs hdec
  obtain ⟨hfields, hlegal⟩ := decode_eq_ok hdec
  obtain ⟨i', hdec'⟩ := decode_of_legal (w := w') (by rwa [hop', ← hfn, ← hop])
  obtain ⟨hfields', -⟩ := decode_eq_ok hdec'
  refine ⟨i', hdec', fun s => ?_⟩
  rw [exec_eq_runUnits, exec_eq_runUnits, hfields, hfields', runUnits_rType hop, runUnits_rType hop', hrd,
    aluOutput_rType_congr s hfn hrt hsh hrs]

end Sys2Proof.Machine
end

section
/-! PROOFS. The Control Unit: its signals over the legal pairs, and its failure on every other pair
(40_datapath_units.md R74 to R85). -/

namespace Sys2Proof

/-- R58, the function codes legal under opcode 0, as a list. -/
theorem legalFunct_iff {funct : Code6} :
    legalFunct funct = true ↔ funct ∈ [0#6, 32#6, 33#6, 34#6, 35#6, 36#6, 37#6, 38#6, 42#6] := by
  simp [legalFunct, or_assoc]

/-- R58, the legal opcodes other than 0, as a list. -/
theorem legalOpcode_iff {opcode : Code6} :
    legalOpcode opcode = true ↔ opcode ∈ [2#6, 4#6, 5#6, 8#6, 9#6, 10#6, 12#6, 35#6, 43#6] := by
  simp [legalOpcode, or_assoc]

/-- R58: a pair is legal in one of two ways, and opcode 0 is in the second only. -/
theorem legalPair_iff {opcode funct : Code6} :
    legalPair opcode funct = true ↔
      opcode ∈ [2#6, 4#6, 5#6, 8#6, 9#6, 10#6, 12#6, 35#6, 43#6] ∨
      (opcode = 0 ∧ funct ∈ [0#6, 32#6, 33#6, 34#6, 35#6, 36#6, 37#6, 38#6, 42#6]) := by
  by_cases h0 : opcode = 0#6
  · subst h0
    simp [legalPair, legalFunct_iff]
  · have hif : legalPair opcode funct = legalOpcode opcode := by simp [legalPair, h0]
    rw [hif, legalOpcode_iff]
    exact ⟨.inl, fun h => h.resolve_right fun hz => h0 hz.1⟩

/-- R60: the opcodes of the legal pairs. -/
theorem opcode_mem_of_legalPair {opcode funct : Code6} (h : legalPair opcode funct = true) :
    opcode ∈ [0#6, 2#6, 4#6, 5#6, 8#6, 9#6, 10#6, 12#6, 35#6, 43#6] := by
  obtain hop | ⟨h0, -⟩ := legalPair_iff.mp h
  · exact List.mem_cons_of_mem _ hop
  · exact h0 ▸ List.mem_cons_self

end Sys2Proof

namespace Sys2Proof.Machine

/-! ## `ALUOp`

R78 lists its conditions in an order; since they exclude each other, the order does not matter. -/

/-- Under opcode 0 the function code alone chooses the operation. -/
theorem deriveAluOp_zero (funct : Code6) :
    deriveAluOp 0#6 funct =
      if funct = 42 then .slt else if funct = 36 ∨ funct = 0 then .and else if funct = 37 then .or
      else if funct = 38 then .xor else .add := by
  simp [deriveAluOp]

/-- Under any other opcode the function code is not read. -/
theorem deriveAluOp_of_ne_zero {opcode : Code6} (funct : Code6) (h : opcode ≠ 0#6) :
    deriveAluOp opcode funct = if opcode = 10 then .slt else if opcode = 2 ∨ opcode = 12 then .and else .add := by
  simp [deriveAluOp, h]

/-- R78: each operation but `ADD` is chosen exactly under its own condition. -/
theorem deriveAluOp_iff (opcode funct : Code6) :
    (deriveAluOp opcode funct = .slt ↔ (opcode = 0 ∧ funct = 42) ∨ opcode = 10) ∧
    (deriveAluOp opcode funct = .and ↔
      (opcode = 0 ∧ funct = 36) ∨ opcode = 2 ∨ opcode = 12 ∨ (opcode = 0 ∧ funct = 0)) ∧
    (deriveAluOp opcode funct = .or ↔ opcode = 0 ∧ funct = 37) ∧
    (deriveAluOp opcode funct = .xor ↔ opcode = 0 ∧ funct = 38) := by
  by_cases h0 : opcode = 0#6
  · subst h0
    rw [deriveAluOp_zero]
    split_ifs with hslt hand hor hxor
    · subst hslt; decide
    · obtain rfl | rfl := hand <;> decide
    · subst hor; decide
    · subst hxor; decide
    · simp_all
  · rw [deriveAluOp_of_ne_zero funct h0]
    split_ifs with hslt hand
    · subst hslt; simp
    · obtain rfl | rfl := hand <;> simp
    · simp_all

/-! ## The other signals -/

theorem deriveControl_shift {opcode funct : Code6} :
    (deriveControl opcode funct).shift = true ↔ opcode = 0 ∧ funct = 0 := by
  simp [deriveControl]

theorem deriveControl_aluSrc {opcode funct : Code6} :
    (deriveControl opcode funct).aluSrc = true ↔ 5 < opcode.toNat := by
  simp [deriveControl]

/-- R77: the two readings of its rule agree on the legal opcodes (on opcode 6, say, they do not). -/
theorem five_lt_opcode_iff_of_legalPair {opcode funct : Code6} (h : legalPair opcode funct = true) :
    5 < opcode.toNat ↔ opcode ∈ [8#6, 9#6, 10#6, 12#6, 35#6, 43#6] := by
  have onLegal : ∀ op ∈ [0#6, 2#6, 4#6, 5#6, 8#6, 9#6, 10#6, 12#6, 35#6, 43#6],
      (5 < op.toNat ↔ op ∈ [8#6, 9#6, 10#6, 12#6, 35#6, 43#6]) := by decide
  exact onLegal opcode (opcode_mem_of_legalPair h)

theorem deriveControl_bNegate {opcode funct : Code6} :
    (deriveControl opcode funct).bNegate = true ↔
      opcode ∈ [4#6, 5#6, 10#6] ∨ (opcode = 0 ∧ funct ∈ [34#6, 35#6, 42#6]) := by
  simp [deriveControl, or_assoc]

theorem deriveControl_branch {opcode funct : Code6} :
    (deriveControl opcode funct).branch = true ↔ opcode = 4 ∨ opcode = 5 := by
  simp [deriveControl]

theorem deriveControl_memRead {opcode funct : Code6} :
    (deriveControl opcode funct).memRead = true ↔ opcode = 35 := by
  simp [deriveControl]

theorem deriveControl_memToReg {opcode funct : Code6} :
    (deriveControl opcode funct).memToReg = true ↔ opcode = 35 := by
  simp [deriveControl]

theorem deriveControl_memWrite {opcode funct : Code6} :
    (deriveControl opcode funct).memWrite = true ↔ opcode = 43 := by
  simp [deriveControl]

theorem deriveControl_jump {opcode funct : Code6} :
    (deriveControl opcode funct).jump = true ↔ opcode = 2 := by
  simp [deriveControl]

theorem deriveControl_regDst {opcode funct : Code6} :
    (deriveControl opcode funct).regDst = true ↔ opcode = 0 := by
  simp [deriveControl]

theorem deriveControl_regWrite {opcode funct : Code6} :
    (deriveControl opcode funct).regWrite = true ↔ opcode = 0 ∨ opcode ∈ [8#6, 9#6, 10#6, 35#6, 12#6] := by
  simp [deriveControl, or_assoc]

/-- Settles O8: the vector is the derived one, each of whose signals has its own lemma; legality is used by the list
form of `ALUSrc` alone. -/
theorem controlSignalsFollowTheirRules : Obligations.ControlSignalsFollowTheirRules := by
  intro opcode funct c h
  obtain ⟨hlegal, rfl⟩ := control_eq_some.mp h
  obtain ⟨hslt, hand, hor, hxor⟩ := deriveAluOp_iff opcode funct
  exact ⟨deriveControl_shift, deriveControl_aluSrc.trans (five_lt_opcode_iff_of_legalPair hlegal),
    deriveControl_aluSrc, hslt, hand, hor, hxor, deriveControl_bNegate, deriveControl_branch, deriveControl_memRead, deriveControl_memToReg,
    deriveControl_memWrite, deriveControl_jump, deriveControl_regDst, deriveControl_regWrite⟩

/-! ## Failure -/

/-- R60, R61 against R58: a word whose codes are not a legal pair is refused by the decoder. -/
theorem decode_of_not_legal {w : Word} (h : legalPair (Fields.ofWord w).opcode (Fields.ofWord w).funct = false) :
    ∃ e, decode w = .error e := by
  cases hd : decode w with
  | error e => exact ⟨e, rfl⟩
  | ok i =>
    obtain ⟨-, hlegal⟩ := decode_eq_ok hd
    rw [h] at hlegal
    cases hlegal

/-- R160, R168: at an aligned `pc`, a fetched word that the decoder refuses ends the step in the fault that names it. -/
theorem step_of_decode_error {s : State} {w : Word} {e : DecodeError} (ha : pcAligned s.pc = true)
    (hw : s.imem.load s.pc = some w) (hd : decode w = .error e) :
    step s = .fault (.illegalInstruction w s.pc) := by
  have hfetch : fetchInstr s = .fault (.illegalInstruction w s.pc) := by
    simp [fetchInstr, fetchWord, raise, ha, hw, hd]
  simp [step, hfetch]

/-- Settles O9: the Control Unit asks for legality alone, and the decoder refuses the words for which it fails. -/
theorem controlFailsExactlyOnIllegalPairs : Obligations.ControlFailsExactlyOnIllegalPairs := by
  constructor
  · intro opcode funct
    rw [control_eq_none, ← Bool.not_eq_true, legalPair_iff]
  · intro s w hpc hw hc
    obtain ⟨e, hd⟩ := decode_of_not_legal (control_eq_none.mp hc)
    exact ⟨w, s.pc, step_of_decode_error (pcAligned_iff.mpr hpc) hw hd⟩

end Sys2Proof.Machine
end

section
/-! PROOFS. The R-type instructions on two registers (41_rtype_alu.md). -/

namespace Sys2Proof.Machine

/-- A cycle of an R-type instruction that is no shift: `x[rd]` takes what the ALU makes of `x[rs]` and `x[rt]` under
the operation of the function code (R78), and `pc` advances by 4. -/
theorem runUnits_rType_of_not_shift (rs rt rd : RegNum) (shamt : Shamt) (s : State) {funct : Code6} {op : AluOp}
    (hshift : funct ≠ 0) (hop : deriveAluOp 0 funct = op) :
    runUnits (.rType rs rt rd shamt funct) s =
      .next ((s.setReg rd (alu op (deriveControl 0 funct).bNegate false (s.reg rs) (s.reg rt)).result).setPc
        (s.pc + 4)) := by
  have hc : (deriveControl 0 (Fields.rType rs rt rd shamt funct).funct).shift = false :=
    Bool.eq_false_iff.mpr fun h => hshift (deriveControl_shift.mp h).2
  rw [runUnits_rType rfl, aluOutput_of_regDst _ s hc rfl, ← hop]
  rfl

/-- Settles O18: none of the three function codes is the shift's, and the ALU operations they choose are the bitwise
ones of R94, R95 and R96. -/
theorem bitwiseInstructionsWriteResult : Obligations.BitwiseInstructionsWriteResult := by
  intro rs rt rd shamt s
  have hand : deriveAluOp 0 36 = .and := by decide
  have hor : deriveAluOp 0 37 = .or := by decide
  have hxor : deriveAluOp 0 38 = .xor := by decide
  exact ⟨runUnits_rType_of_not_shift rs rt rd shamt s (by decide) hand,
    runUnits_rType_of_not_shift rs rt rd shamt s (by decide) hor,
    runUnits_rType_of_not_shift rs rt rd shamt s (by decide) hxor⟩

end Sys2Proof.Machine
end

section
/-! PROOFS. The shift instruction (42_shift.md). -/

namespace Sys2Proof.Machine

/-- Section 5's meaning of `<<`: the low bits of the product with a power of two. -/
theorem shiftLeft_eq_ofNat_mul_two_pow {w : Nat} (a : BitVec w) (n : Nat) :
    a <<< n = BitVec.ofNat w (a.toNat * 2 ^ n) := by
  apply BitVec.eq_of_toNat_eq
  rw [BitVec.toNat_shiftLeft, BitVec.toNat_ofNat, Nat.shiftLeft_eq]

/-- R78, R89, R90, R94: under the two codes of the shift the ALU shifts `x[rt]` left by the shift amount field. -/
theorem aluOutput_sll_result (f : Fields) (s : State) :
    (aluOutput (deriveControl 0 0) f s).result = s.reg f.rt <<< f.shamt.toNat := by
  have hshift : (deriveControl 0 0).shift = true := deriveControl_shift.mpr ⟨rfl, rfl⟩
  have hop : (deriveControl 0 0).aluOp = .and := by decide
  rw [aluOutput_of_shift f s hshift, hop]
  exact aluAnd_shift_zext32 (s.reg f.rt) f.shamt

/-- Settles O20: a cycle under opcode 0 writes the ALU's result to `rd`, here the shift, which is the product modulo
2^32; `rs` does not reach the ALU. -/
theorem sllShiftsLeft : Obligations.SllShiftsLeft := by
  intro rs rt rd shamt s
  have hres := aluOutput_sll_result (.rType rs rt rd shamt 0) s
  rw [shiftLeft_eq_ofNat_mul_two_pow] at hres
  calc exec (.sll rs rt rd shamt) s
      = runUnits (.rType rs rt rd shamt 0) s := exec_eq_runUnits _ s
    _ = .next ((s.setReg rd (aluOutput (deriveControl 0 0) (.rType rs rt rd shamt 0) s).result).setPc (s.pc + 4)) :=
      runUnits_rType rfl s
    _ = .next ((s.setReg rd (BitVec.ofNat 32 ((s.reg rt).toNat * 2 ^ shamt.toNat))).setPc (s.pc + 4)) := by
      rw [hres]; rfl

end Sys2Proof.Machine
end

section
/-! PROOFS. The instructions on a register and an immediate, and `andi` among them (43_immediate.md). -/

namespace Sys2Proof.Machine

/-! ## The units on a register-immediate instruction

Each fact is said of the four opcodes of `addi`, `addiu`, `slti` and `andi`. -/

/-- R101: under these opcodes the Memory Unit does nothing. -/
theorem memoryUnit_immediate {opcode : Code6} (h : opcode ∈ [8#6, 9#6, 10#6, 12#6]) (funct : Code6) (a v : Word)
    (m : Memory) : memoryUnit (deriveControl opcode funct) a v m = some ⟨m, 0⟩ := by
  have hread : opcode ≠ 35 := by rintro rfl; simp at h
  have hwrite : opcode ≠ 43 := by rintro rfl; simp at h
  exact memoryUnit_eq_some.mpr (.inr (.inr ⟨Bool.eq_false_iff.mpr fun hc => hread (deriveControl_memRead.mp hc),
    Bool.eq_false_iff.mpr fun hc => hwrite (deriveControl_memWrite.mp hc), rfl⟩))

/-- R102: under these opcodes the next `pc` is the sequential one. -/
theorem pcUnit_immediate (pc : Word) {f : Fields} (h : f.opcode ∈ [8#6, 9#6, 10#6, 12#6]) (zero : Bool) :
    pcUnit pc f (deriveControl f.opcode f.funct) zero = pc + 4 := by
  simp only [List.mem_cons, List.not_mem_nil, or_false] at h
  rcases h with h | h | h | h <;> simp [pcUnit, deriveControl, h]

/-- R103: under these opcodes the write port writes the ALU's result to `rt`. -/
theorem writebackPort_immediate {f : Fields} (h : f.opcode ∈ [8#6, 9#6, 10#6, 12#6]) (res memData : Word) :
    writebackPort (deriveControl f.opcode f.funct) f res memData = some (f.rt, res) := by
  simp only [List.mem_cons, List.not_mem_nil, or_false] at h
  rcases h with h | h | h | h <;> simp [writebackPort, deriveControl, h]

/-- The whole next state of a cycle under one of these opcodes. -/
theorem runUnits_immediate {f : Fields} (h : f.opcode ∈ [8#6, 9#6, 10#6, 12#6]) (s : State) :
    runUnits f s =
      .next ((s.setReg f.rt (aluOutput (deriveControl f.opcode f.funct) f s).result).setPc (s.pc + 4)) := by
  refine runWith_eq_next.mpr ⟨_, memoryUnit_immediate h .., ?_⟩
  rw [writebackPort_immediate h, pcUnit_immediate s.pc h]
  rfl

/-! ## `andi` -/

/-- R78, R89, R90, R94: under opcode 12 the ALU takes the bitwise AND of `x[rs]` and the zero-extended immediate. -/
theorem aluOutput_andi_result {f : Fields} (h : f.opcode = 12) (s : State) :
    (aluOutput (deriveControl f.opcode f.funct) f s).result = s.reg f.rs &&& zext32 f.imm16 := by
  obtain ⟨-, hand, -⟩ := deriveAluOp_iff f.opcode f.funct
  have hop : (deriveControl f.opcode f.funct).aluOp = .and := hand.mpr (.inr (.inr (.inl h)))
  have hin1 : selectIn1 (deriveControl f.opcode f.funct) (s.reg f.rs) (s.reg f.rt) = s.reg f.rs := by
    simp [selectIn1, deriveControl, h]
  have hin2 : selectIn2 (deriveControl f.opcode f.funct) f (s.reg f.rt) = zext32 f.imm16 := by
    simp [selectIn2, deriveControl, h]
  have hshift : (deriveControl f.opcode f.funct).shift = false := by simp [deriveControl, h]
  rw [aluOutput, hop, hin1, hin2, hshift]
  rfl

/-- R138's comment: a word masked by a zero-extended immediate keeps its low half alone. -/
theorem and_zext32 (a : Word) (v : Imm16) : a &&& zext32 v = 0#16 ++ (a.extractLsb' 0 16 &&& v) := by
  ext i hi
  rw [BitVec.getElem_append]
  split
  · next hlow => simp [zext32, hlow, BitVec.getLsbD_eq_getElem, hi]
  · next hhigh => simp [zext32, BitVec.getLsbD_of_ge v i (by omega)]

/-- Settles O22: a cycle under a register-immediate opcode writes the ALU's result to `rt`; under opcode 12 that is
the masked word, whose high half is zero. -/
theorem andiWritesMaskedLowHalf : Obligations.AndiWritesMaskedLowHalf := by
  intro rs rt imm s
  have hop : (Instr.fields (.andi rs rt imm)).opcode = 12 := rfl
  rw [exec_eq_runUnits, runUnits_immediate (by simp [hop]), aluOutput_andi_result hop, and_zext32]
  rfl

end Sys2Proof.Machine
end

section
/-! PROOFS. The jump (45_control_transfer.md). -/

namespace Sys2Proof.Machine

/-! ## The units on a jump -/

/-- R101: under opcode 2 the Memory Unit does nothing. -/
theorem memoryUnit_jump (funct : Code6) (a v : Word) (m : Memory) :
    memoryUnit (deriveControl 2 funct) a v m = some ⟨m, 0⟩ :=
  memoryUnit_eq_some.mpr (.inr (.inr ⟨rfl, rfl, rfl⟩))

/-- R102: under opcode 2 the next `pc` is the jump's target, whatever the zero flag. -/
theorem pcUnit_jump (pc : Word) {f : Fields} (h : f.opcode = 2) (zero : Bool) :
    pcUnit pc f (deriveControl 2 f.funct) zero = jumpTarget pc f.addr26 := by
  simp [pcUnit, deriveControl, h]

/-- R103: under opcode 2 no register is written. -/
theorem writebackPort_jump {f : Fields} (h : f.opcode = 2) (res memData : Word) :
    writebackPort (deriveControl 2 f.funct) f res memData = none := by
  simp [writebackPort, deriveControl, h]

/-- The whole next state of a cycle under opcode 2: the ALU's output is used by nothing. -/
theorem runUnits_jump {f : Fields} (h : f.opcode = 2) (s : State) :
    runUnits f s = .next (s.setPc (jumpTarget s.pc f.addr26)) := by
  rw [runUnits, h]
  refine runWith_eq_next.mpr ⟨_, memoryUnit_jump .., ?_⟩
  rw [writebackPort_jump h, pcUnit_jump s.pc h]
  rfl

/-! ## The target of a jump -/

/-- R153's comment: the mask and the shifted address field share no bit, so their union is a concatenation. -/
theorem jumpTarget_eq_append (pc : Word) (addr : Addr26) :
    jumpTarget pc addr = pc.extractLsb' 28 4 ++ addr ++ 0#2 := by
  have hmask : ∀ i < 32, (0xF0000000#32).getLsbD i = decide (28 ≤ i) := by decide
  refine BitVec.eq_of_getLsbD_eq fun i hi => ?_
  simp only [jumpTarget, zext32, BitVec.getLsbD_or, BitVec.getLsbD_and, hmask i hi, BitVec.getLsbD_append,
    BitVec.getLsbD_shiftLeft, BitVec.getLsbD_extractLsb', BitVec.truncate_eq_setWidth]
  obtain hzeros | ⟨hlo, hhi⟩ | hhigh : i < 2 ∨ (2 ≤ i ∧ i < 28) ∨ 28 ≤ i := by omega
  · simp [hzeros, show i < 28 by omega]
  · have haddr : i - 2 < 26 := by omega
    simp [Nat.not_lt.mpr hlo, Nat.not_le.mpr hhi, haddr, hi, show i - 2 < 32 by omega]
  · have hout : addr.getLsbD (i - 2) = false := BitVec.getLsbD_of_ge _ _ (by omega)
    have hbit : 28 + (i - 2 - 26) = i := by omega
    simp [hout, hhigh, hbit, show ¬ i < 2 by omega, show ¬ i - 2 < 26 by omega, show i - 2 - 26 < 4 by omega]

/-- Settles O27: a cycle under opcode 2 differs from its start in `pc` only, which is the target. -/
theorem jumpReplacesLowBitsOfPc : Obligations.JumpReplacesLowBitsOfPc := by
  intro addr s
  rw [exec_eq_runUnits, runUnits_jump rfl, jumpTarget_eq_append]
  rfl

end Sys2Proof.Machine
end

section
/-! PROOFS. What a step leaves of the instruction memory (70_reset_and_hazards.md). -/

namespace Sys2Proof.Machine

/-- R42: a completed step is one completed instruction, and no unit has a port that writes the instruction memory. -/
theorem step_next_imem {s t : State} (h : step s = .next t) : t.imem = s.imem := by
  obtain ⟨w, i, -, -, -, hexec⟩ := step_eq_next.mp h
  obtain ⟨himem, -⟩ := exec_next_memories hexec
  exact himem

/-- Settles O37: a fetch reads nothing but the instruction memory, which the step keeps whole. -/
theorem noStepWritesInstructionMemory : Obligations.NoStepWritesInstructionMemory := by
  intro s t h
  have himem : t.imem = s.imem := step_next_imem h
  exact ⟨himem, fun pc => by rw [himem]⟩

end Sys2Proof.Machine
end

section
/-! PROOFS. The decoder against the encoder, the fields and the opcode maps (30_encoding.md). -/

namespace Sys2Proof

/-! ## The word, its fields and its instruction determine each other -/

/-- R52 to R54: the Decoder unit, given an instruction's word, produces that instruction's fields. -/
@[simp] theorem Fields.ofWord_encode (i : Instr) : Fields.ofWord (encode i) = i.fields := by
  cases i with
  | sll rs rt rd shamt => exact Laws.FieldsOfEncode.sll rs rt rd shamt
  | add rs rt rd shamt => exact Laws.FieldsOfEncode.add rs rt rd shamt
  | addu rs rt rd shamt => exact Laws.FieldsOfEncode.addu rs rt rd shamt
  | sub rs rt rd shamt => exact Laws.FieldsOfEncode.sub rs rt rd shamt
  | subu rs rt rd shamt => exact Laws.FieldsOfEncode.subu rs rt rd shamt
  | and rs rt rd shamt => exact Laws.FieldsOfEncode.and rs rt rd shamt
  | or rs rt rd shamt => exact Laws.FieldsOfEncode.or rs rt rd shamt
  | xor rs rt rd shamt => exact Laws.FieldsOfEncode.xor rs rt rd shamt
  | slt rs rt rd shamt => exact Laws.FieldsOfEncode.slt rs rt rd shamt
  | j addr => exact Laws.FieldsOfEncode.j addr
  | beq rs rt imm => exact Laws.FieldsOfEncode.beq rs rt imm
  | bne rs rt imm => exact Laws.FieldsOfEncode.bne rs rt imm
  | addi rs rt imm => exact Laws.FieldsOfEncode.addi rs rt imm
  | addiu rs rt imm => exact Laws.FieldsOfEncode.addiu rs rt imm
  | slti rs rt imm => exact Laws.FieldsOfEncode.slti rs rt imm
  | andi rs rt imm => exact Laws.FieldsOfEncode.andi rs rt imm
  | lw rs rt imm => exact Laws.FieldsOfEncode.lw rs rt imm
  | sw rs rt imm => exact Laws.FieldsOfEncode.sw rs rt imm

@[simp] theorem Fields.rType_opcode (rs rt rd : RegNum) (shamt : Shamt) (funct : Code6) :
    (Fields.rType rs rt rd shamt funct).opcode = 0 := rfl

@[simp] theorem Fields.iType_opcode (opcode : Code6) (rs rt : RegNum) (imm : Imm16) :
    (Fields.iType opcode rs rt imm).opcode = opcode := rfl

@[simp] theorem Fields.jType_opcode (opcode : Code6) (addr : Addr26) : (Fields.jType opcode addr).opcode = opcode := rfl

/-- R60, R61: the maps lead from an instruction's fields back to the instruction. -/
theorem decodeFields_fields (i : Instr) : decodeFields i.fields = .ok i := by
  cases i <;> rfl

/-- A word decodes to an instruction exactly when their fields agree. -/
theorem decode_eq_ok_iff {w : Word} {i : Instr} : decode w = .ok i ↔ Fields.ofWord w = i.fields := by
  constructor
  · intro h
    obtain ⟨hfields, -⟩ := decode_eq_ok h
    exact hfields.symm
  · intro h
    rw [decode, h, decodeFields_fields]

/-- R51, R54: the opcode and the address field are the whole word. -/
theorem opcode_append_addr26 (w : Word) : (Fields.ofWord w).opcode ++ (Fields.ofWord w).addr26 = w :=
  (BitVec.extractLsb'_append_extractLsb'_eq_extractLsb' (len₁ := 26) (len₂ := 6) rfl).trans BitVec.extractLsb'_eq_self

/-- The fields determine the word. -/
theorem Fields.ofWord_injective : Function.Injective Fields.ofWord := by
  intro w w' h
  rw [← opcode_append_addr26 w, h, opcode_append_addr26]

/-- Settles O2: the word's fields are the instruction's, from which the decoder reads it. -/
theorem decodeOfEncodeIsIdentity : Obligations.DecodeOfEncodeIsIdentity :=
  fun i => decode_eq_ok_iff.mpr (Fields.ofWord_encode i)

/-- Settles O3: the word encoded and the word decoded have the same fields, so they are the same word. -/
theorem encodeOfDecodeIsIdentity : Obligations.EncodeOfDecodeIsIdentity := by
  intro w i h
  apply Fields.ofWord_injective
  rw [Fields.ofWord_encode, decode_eq_ok_iff.mp h]

/-! ## Match and mask -/

/-- Where a mask is all ones, a word has the slice that its masked value has. -/
theorem extractLsb'_of_masked {w mask value : Word} {start n : Nat} (h : w &&& mask = value)
    (hmask : mask.extractLsb' start n = BitVec.allOnes n) : w.extractLsb' start n = value.extractLsb' start n := by
  rw [← h, BitVec.extractLsb'_and, hmask, BitVec.and_allOnes]

/-- R61's mask selects opcode 0 and a function code. -/
theorem Fields.ofWord_eq_rType_of_masked {w value : Word} {funct : Code6} (h : w &&& 0xFC00003F = value)
    (hop : value.extractLsb' 26 6 = 0) (hfunct : value.extractLsb' 0 6 = funct) :
    Fields.ofWord w = .rType (Fields.ofWord w).rs (Fields.ofWord w).rt (Fields.ofWord w).rd (Fields.ofWord w).shamt
      funct := by
  have hzero : (Fields.ofWord w).opcode = 0 := (extractLsb'_of_masked h (by decide)).trans hop
  have hcode : (Fields.ofWord w).funct = funct := (extractLsb'_of_masked h (by decide)).trans hfunct
  rw [← hcode]
  exact Fields.ofWord_eq_rType hzero

/-- R60's mask selects an opcode, here one of the I-type. -/
theorem Fields.ofWord_eq_iType_of_masked {w value : Word} {opcode : Code6} (h : w &&& 0xFC000000 = value)
    (hop : value.extractLsb' 26 6 = opcode) :
    Fields.ofWord w = .iType opcode (Fields.ofWord w).rs (Fields.ofWord w).rt (Fields.ofWord w).imm16 := by
  have hcode : (Fields.ofWord w).opcode = opcode := (extractLsb'_of_masked h (by decide)).trans hop
  rw [← hcode]
  exact Fields.ofWord_eq_iType w

/-- R60's mask selects an opcode, here the J-type's. -/
theorem Fields.ofWord_eq_jType_of_masked {w value : Word} {opcode : Code6} (h : w &&& 0xFC000000 = value)
    (hop : value.extractLsb' 26 6 = opcode) : Fields.ofWord w = .jType opcode (Fields.ofWord w).addr26 := by
  have hcode : (Fields.ofWord w).opcode = opcode := (extractLsb'_of_masked h (by decide)).trans hop
  rw [← hcode]
  exact Fields.ofWord_eq_jType w

/-- Settles O4: each row's match holds the codes of its instruction, and the fields follow by the row's format. -/
theorem matchAndMaskSelectInstruction : Obligations.MatchAndMaskSelectInstruction := by
  intro w f
  refine ⟨?sll, ?add, ?addu, ?sub, ?subu, ?and, ?or, ?xor, ?slt, ?j, ?beq, ?bne, ?addi, ?addiu, ?slti, ?andi, ?lw,
    ?sw⟩
  case j => exact fun h => decode_eq_ok_iff.mpr (Fields.ofWord_eq_jType_of_masked h (by decide))
  case beq | bne | addi | addiu | slti | andi | lw | sw =>
    exact fun h => decode_eq_ok_iff.mpr (Fields.ofWord_eq_iType_of_masked h (by decide))
  all_goals exact fun h => decode_eq_ok_iff.mpr (Fields.ofWord_eq_rType_of_masked h (by decide) (by decide))

/-! ## Legal words and overlapping fields -/

/-- Settles O5: the decoder reads exactly the words with a legal pair of codes, which R58 lists. -/
theorem decodesExactlyTheLegalWords : Obligations.DecodesExactlyTheLegalWords := by
  intro w f
  rw [← legalPair_iff]
  constructor
  · rintro ⟨i, hi⟩
    obtain ⟨-, hlegal⟩ := decode_eq_ok hi
    exact hlegal
  · exact decode_of_legal

/-- R51: the nine fields of a word are slices of one word. -/
theorem Fields.wellFormed_ofWord (w : Word) : (Fields.ofWord w).wellFormed = true := by
  have himm : (Fields.ofWord w).imm16 = (Fields.ofWord w).rd ++ (Fields.ofWord w).shamt ++ (Fields.ofWord w).funct :=
    Eq.symm <| calc
      w.extractLsb' 11 5 ++ w.extractLsb' 6 5 ++ w.extractLsb' 0 6
        = w.extractLsb' 6 10 ++ w.extractLsb' 0 6 := by
          rw [BitVec.extractLsb'_append_extractLsb'_eq_extractLsb' (len₁ := 5) (len₂ := 5) rfl]
      _ = w.extractLsb' 0 16 := BitVec.extractLsb'_append_extractLsb'_eq_extractLsb' (len₁ := 6) (len₂ := 10) rfl
  have haddr := congrArg Fields.addr26 (Fields.ofWord_eq_iType w)
  simp only [Fields.wellFormed, Bool.and_eq_true, beq_iff_eq]
  exact ⟨⟨himm, rfl⟩, haddr⟩

/-- Settles O6: the slices overlap as the Decoder unit takes them, and the first and the last make up the word. -/
theorem fieldsAreSlicesOfTheWord : Obligations.FieldsAreSlicesOfTheWord :=
  fun w => ⟨Fields.wellFormed_ofWord w, (opcode_append_addr26 w).symm⟩

/-- Settles O1: each is one fixed word, on which the decoder computes. -/
theorem writtenOutWordsDecode : Obligations.WrittenOutWordsDecode := by
  refine ⟨?_, ?_, ?_, ?_, ?_, ?_, ?_, ?_, ?_, ?_⟩ <;> decide

end Sys2Proof
end

section
/-! PROOFS. What the units do on legal instructions, and the ALU's two flags on all operands (40_datapath_units.md). -/

namespace Sys2Proof.Machine

/-! ## Control Unit -/

/-- Settles O10: the signals are raised by different opcodes, and the two that go with register writes by opcodes that
write, or do not write, one. -/
theorem controlSignalsNeverConflict : Obligations.ControlSignalsNeverConflict := by
  intro opcode funct c h
  obtain ⟨-, rfl⟩ := control_eq_some.mp h
  simp only [deriveControl_memRead, deriveControl_memWrite, deriveControl_branch, deriveControl_jump,
    deriveControl_memToReg, deriveControl_regWrite, ← Bool.not_eq_true]
  refine ⟨?_, ?_, ?_, ?_⟩
  · rintro ⟨rfl, hwrite⟩
    cases hwrite
  · rintro ⟨rfl | rfl, hjump⟩ <;> cases hjump
  · rintro rfl
    decide
  · rintro ((rfl | rfl) | rfl) <;> decide

/-- R106: a legal opcode under which `ALUSrc` is clear has one of the signals by which R90's second clause takes
`x[rt]`. -/
theorem deriveControl_regDst_branch_jump_of_not_aluSrc {opcode funct : Code6} (h : legalPair opcode funct = true)
    (hsrc : (deriveControl opcode funct).aluSrc = false) :
    ((deriveControl opcode funct).regDst || (deriveControl opcode funct).branch ||
      (deriveControl opcode funct).jump) = true := by
  have onLegal : ∀ op ∈ [0#6, 2#6, 4#6, 5#6, 8#6, 9#6, 10#6, 12#6, 35#6, 43#6],
      ¬ 5 < op.toNat → op = 0 ∨ (op = 4 ∨ op = 5) ∨ op = 2 := by decide
  have hop := onLegal opcode (opcode_mem_of_legalPair h)
    (fun hlt => by rw [deriveControl_aluSrc.mpr hlt] at hsrc; cases hsrc)
  rw [Bool.or_eq_true, Bool.or_eq_true, deriveControl_regDst, deriveControl_branch, deriveControl_jump, or_assoc]
  exact hop

/-! ## Operand Selector -/

/-- R89, R90: under an opcode with an immediate operand, ALU input 2 is the immediate. -/
theorem selectIn2_immediate {f : Fields} (h : f.opcode ∈ [8#6, 9#6, 10#6, 12#6, 35#6, 43#6]) (rtVal : Word) :
    selectIn2 (deriveControl f.opcode f.funct) f rtVal = if f.opcode = 12 then zext32 f.imm16 else f.simm32 := by
  simp only [List.mem_cons, List.not_mem_nil, or_false] at h
  rcases h with h | h | h | h | h | h <;> simp [selectIn2, deriveControl, h]

/-- Settles O11: on a legal pair `ALUSrc` is set for the opcodes with an immediate operand, and where it is clear R90
stops at its second clause. -/
theorem operandTwoIsImmediateExactlyUnderAluSrc : Obligations.OperandTwoIsImmediateExactlyUnderAluSrc := by
  intro f c rtVal h hshift
  obtain ⟨hlegal, rfl⟩ := control_eq_some.mp h
  constructor
  · intro hsrc
    exact selectIn2_immediate ((five_lt_opcode_iff_of_legalPair hlegal).mp (deriveControl_aluSrc.mp hsrc)) rtVal
  · intro hsrc
    have hreg := deriveControl_regDst_branch_jump_of_not_aluSrc hlegal hsrc
    simp [selectIn2, hshift, hreg]

/-! ## ALU -/

theorem zeroFlag_iff {result : Word} : zeroFlag result = true ↔ result = 0 := by
  simp [zeroFlag]

/-- Settles O12: set-less-than gives its flag with its result; every other operation compares its result with 0. -/
theorem zeroFlagSaysResultIsZero : Obligations.ZeroFlagSaysResultIsZero := by
  intro op bNegate shift a b
  cases op with
  | slt =>
    rw [alu, aluSlt_wrapdiff]
    split <;> decide
  | and => exact zeroFlag_iff
  | or => exact zeroFlag_iff
  | add => exact zeroFlag_iff
  | xor => exact zeroFlag_iff

/-- R93 under `wrapdiff`: the result of set-less-than, whatever the other inputs. -/
theorem alu_slt_result (bNegate shift : Bool) (a b : Word) :
    (alu .slt bNegate shift a b).result = if (a - b).msb then 1 else 0 := by
  rw [alu, aluSlt_wrapdiff]
  split <;> rfl

/-- Where the exact difference fits in 32 signed bits, its sign is the sign of the 32-bit difference. -/
theorem msb_sub_of_fits {a b : Word} (hlo : -2 ^ 31 ≤ a.toInt - b.toInt) (hhi : a.toInt - b.toInt ≤ 2 ^ 31 - 1) :
    (a - b).msb = true ↔ a.toInt < b.toInt := by
  rw [BitVec.msb_eq_toInt, decide_eq_true_eq, BitVec.toInt_sub,
    Int.bmod_eq_of_le (by norm_num; omega) (by norm_num; omega)]
  omega

/-- In the overflow band the 32-bit difference has the opposite sign of the exact one. -/
theorem msb_sub_of_overflow {a b : Word} (h : a.toInt - b.toInt < -2 ^ 31 ∨ 2 ^ 31 - 1 < a.toInt - b.toInt) :
    (a - b).msb = true ↔ ¬ a.toInt < b.toInt := by
  have halo := BitVec.le_toInt a
  have hahi := BitVec.toInt_lt (x := a)
  have hblo := BitVec.le_toInt b
  have hbhi := BitVec.toInt_lt (x := b)
  rw [BitVec.msb_eq_toInt, decide_eq_true_eq, BitVec.toInt_sub, Int.bmod_def]
  norm_num at *
  split <;> omega

/-- Settles O13: set-less-than reads the sign of the 32-bit difference, which the band alone turns round. -/
theorem sltIsSignedOutsideTheBand : Obligations.SltIsSignedOutsideTheBand := by
  intro bNegate shift a b
  rw [alu_slt_result]
  constructor
  · rintro ⟨hlo, hhi⟩
    simp only [msb_sub_of_fits hlo hhi]
  · intro h
    simp only [msb_sub_of_overflow h, ite_not]

/-! ## Writeback Unit -/

/-- Settles O14: for each legal opcode, R103's clauses choose the port that the signals describe. -/
theorem writebackIsOneWritePort : Obligations.WritebackIsOneWritePort := by
  intro f c res memData h
  obtain ⟨hlegal, rfl⟩ := control_eq_some.mp h
  have hop := opcode_mem_of_legalPair hlegal
  simp only [List.mem_cons, List.not_mem_nil, or_false] at hop
  rcases hop with h | h | h | h | h | h | h | h | h | h <;> simp [writebackPort, deriveControl, h]

end Sys2Proof.Machine
end

section
/-! PROOFS. The effect of the arithmetic instructions, and reading a register after a write (41_rtype_alu.md,
43_immediate.md). -/

namespace Sys2Proof.Machine

/-- Settles O15: a register write is the update of one slot. -/
theorem registerReadsWhatWasWritten : Obligations.RegisterReadsWhatWasWritten :=
  State.reg_setReg

/-! ## Two registers -/

/-- Settles O16: under neither function code does R78 choose another operation than `ADD`, and `bNegate` is clear. -/
theorem addWritesSum : Obligations.AddWritesSum := by
  intro rs rt rd shamt s
  exact ⟨runUnits_rType_of_not_shift (op := .add) rs rt rd shamt s (by decide) (by decide),
    runUnits_rType_of_not_shift (op := .add) rs rt rd shamt s (by decide) (by decide)⟩

/-- Settles O17: as for the sum, with `bNegate` set. -/
theorem subWritesDifference : Obligations.SubWritesDifference := by
  intro rs rt rd shamt s
  exact ⟨runUnits_rType_of_not_shift (op := .add) rs rt rd shamt s (by decide) (by decide),
    runUnits_rType_of_not_shift (op := .add) rs rt rd shamt s (by decide) (by decide)⟩

/-! ## A register and a sign-extended immediate -/

/-- R89, R90: every opcode with an immediate operand but `andi`'s gives the ALU `x[rs]` and the sign-extended
immediate. -/
theorem aluOutput_sext {f : Fields} (h : f.opcode ∈ [8#6, 9#6, 10#6, 35#6, 43#6]) (s : State) :
    aluOutput (deriveControl f.opcode f.funct) f s =
      alu (deriveAluOp f.opcode f.funct) (deriveControl f.opcode f.funct).bNegate false (s.reg f.rs) f.simm32 := by
  have apart : ∀ op ∈ [8#6, 9#6, 10#6, 35#6, 43#6],
      op ≠ 0 ∧ op ≠ 12 ∧ op ∈ [8#6, 9#6, 10#6, 12#6, 35#6, 43#6] := by decide
  obtain ⟨hzero, handi, himm⟩ := apart f.opcode h
  have hshift : (deriveControl f.opcode f.funct).shift = false :=
    Bool.eq_false_iff.mpr fun hc => hzero (deriveControl_shift.mp hc).1
  rw [aluOutput, selectIn2_immediate himm, if_neg handi, selectIn1, hshift]
  rfl

/-- R78, R97: the sums of `addi` and `addiu`, and the effective addresses of `lw` and `sw`. -/
theorem aluOutput_sext_sum {f : Fields} (h : f.opcode ∈ [8#6, 9#6, 35#6, 43#6]) (s : State) :
    (aluOutput (deriveControl f.opcode f.funct) f s).result = s.reg f.rs + f.simm32 := by
  have onSums : ∀ op ∈ [8#6, 9#6, 35#6, 43#6], op ∈ [8#6, 9#6, 10#6, 35#6, 43#6] ∧ op ≠ 0 ∧ op ≠ 10 ∧
      ¬ (op = 2 ∨ op = 12) ∧ op ∉ [4#6, 5#6, 10#6] := by decide
  obtain ⟨hsext, hzero, hslti, hand, hneg⟩ := onSums f.opcode h
  have hbNegate : (deriveControl f.opcode f.funct).bNegate = false :=
    Bool.eq_false_iff.mpr fun hc => (deriveControl_bNegate.mp hc).elim hneg fun h0 => hzero h0.1
  rw [aluOutput_sext hsext, deriveAluOp_of_ne_zero _ hzero, if_neg hslti, if_neg hand, hbNegate]
  rfl

/-- R135, R136: the whole next state of a cycle that writes such a sum. -/
theorem runUnits_immediate_sum {f : Fields} (h : f.opcode ∈ [8#6, 9#6]) (s : State) :
    runUnits f s = .next ((s.setReg f.rt (s.reg f.rs + f.simm32)).setPc (s.pc + 4)) := by
  have onBoth : ∀ op ∈ [8#6, 9#6], op ∈ [8#6, 9#6, 10#6, 12#6] ∧ op ∈ [8#6, 9#6, 35#6, 43#6] := by decide
  obtain ⟨himm, hsum⟩ := onBoth f.opcode h
  rw [runUnits_immediate himm, aluOutput_sext_sum hsum]

/-- Settles O21: both opcodes write the ALU's result to `rt`, and that is the sum. -/
theorem addImmediateWritesSum : Obligations.AddImmediateWritesSum := by
  intro rs rt imm s
  exact ⟨runUnits_immediate_sum (f := .iType 8 rs rt imm) (by simp) s,
    runUnits_immediate_sum (f := .iType 9 rs rt imm) (by simp) s⟩

/-! ## Set-less-than -/

/-- R127, R137: the result of set-less-than is the sign bit of the difference, zero-extended. -/
theorem alu_slt_result_eq_zext32 (bNegate shift : Bool) (a b : Word) :
    (alu .slt bNegate shift a b).result = zext32 ((a - b).extractLsb' 31 1) := by
  have hbit : (a - b).extractLsb' 31 1 = BitVec.ofBool (a - b).msb := by
    refine extractLsb'_eq_of_bits fun i hi => ?_
    obtain rfl : i = 0 := by omega
    simp [BitVec.msb_eq_getLsbD_last]
  rw [alu_slt_result, hbit]
  cases (a - b).msb <;> decide

/-- Settles O19: the operation of both instructions is set-less-than, on `x[rt]` or on the immediate. -/
theorem sltWritesSignOfDifference : Obligations.SltWritesSignOfDifference := by
  intro rs rt rd shamt imm s
  constructor
  · have hslt := runUnits_rType_of_not_shift (op := .slt) rs rt rd shamt s (funct := 42) (by decide) (by decide)
    rw [alu_slt_result_eq_zext32] at hslt
    exact hslt
  · have hslti := runUnits_immediate (f := .iType 10 rs rt imm) (by simp) s
    rw [aluOutput_sext (by simp), Fields.iType_opcode, deriveAluOp_of_ne_zero _ (by decide), if_pos rfl,
      alu_slt_result_eq_zext32] at hslti
    exact hslti

end Sys2Proof.Machine
end

section
/-! PROOFS. The load and the store (44_load_store.md). -/

namespace Sys2Proof.Machine

/-- R102: an opcode of no branch and no jump goes to the next instruction. -/
theorem pcUnit_sequential (pc : Word) {f : Fields} (h : f.opcode ∉ [2#6, 4#6, 5#6]) (zero : Bool) :
    pcUnit pc f (deriveControl f.opcode f.funct) zero = pc + 4 := by
  simp only [List.mem_cons, List.not_mem_nil, or_false, not_or] at h
  obtain ⟨hj, hbeq, hbne⟩ := h
  simp [pcUnit, deriveControl, hj, hbeq, hbne]

/-- R145: a load whose word index is below `DMEM_WORDS`. -/
theorem exec_lw {rs rt : RegNum} {imm : Imm16} {s : State} (h : wordIndex (s.effectiveAddress rs imm) < s.dmem.words) :
    exec (.lw rs rt imm) s =
      .next ((s.setReg rt (s.dmem.word (wordIndex (s.effectiveAddress rs imm)))).setPc (s.pc + 4)) := by
  have hea := aluOutput_sext_sum (f := .iType 35 rs rt imm) (by simp) s
  refine runWith_eq_next.mpr ⟨_, memoryUnit_eq_some.mpr (.inl ⟨rfl, ?_, rfl⟩), ?_⟩
  · rw [hea]
    exact h
  · rw [hea, pcUnit_sequential _ (by simp)]
    rfl

/-- R146: a store whose word index is below `DMEM_WORDS`. -/
theorem exec_sw {rs rt : RegNum} {imm : Imm16} {s : State} (h : wordIndex (s.effectiveAddress rs imm) < s.dmem.words) :
    exec (.sw rs rt imm) s =
      .next ((s.setDmem (s.dmem.setWord (wordIndex (s.effectiveAddress rs imm)) (s.reg rt))).setPc (s.pc + 4)) := by
  have hea := aluOutput_sext_sum (f := .iType 43 rs rt imm) (by simp) s
  refine runWith_eq_next.mpr ⟨_, memoryUnit_eq_some.mpr (.inr (.inl ⟨rfl, rfl, ?_, rfl⟩)), ?_⟩
  · rw [hea]
    exact h
  · rw [hea, pcUnit_sequential _ (by simp)]
    rfl

/-- R163: under the opcodes of the load and the store a word index not below `DMEM_WORDS` is a fault. -/
theorem runUnits_out_of_range {f : Fields} (hop : f.opcode ∈ [35#6, 43#6]) {s : State}
    (h : s.dmem.words ≤ wordIndex (s.reg f.rs + f.simm32)) :
    runUnits f s = .fault (.dataOutOfRange (s.reg f.rs + f.simm32) s.pc) := by
  have onBoth : ∀ op ∈ [35#6, 43#6], op ∈ [8#6, 9#6, 35#6, 43#6] ∧ (op = 35 ∨ op = 43) := by decide
  obtain ⟨hsum, haccess⟩ := onBoth f.opcode hop
  have hea := aluOutput_sext_sum hsum s
  refine runWith_eq_fault.mpr ⟨memoryUnit_eq_none.mpr ⟨?_, ?_⟩, ?_⟩
  · exact haccess.imp deriveControl_memRead.mpr deriveControl_memWrite.mpr
  · rw [hea]
    exact h
  · rw [hea]

theorem exec_lw_out_of_range {rs rt : RegNum} {imm : Imm16} {s : State}
    (h : s.dmem.words ≤ wordIndex (s.effectiveAddress rs imm)) :
    exec (.lw rs rt imm) s = .fault (.dataOutOfRange (s.effectiveAddress rs imm) s.pc) :=
  runUnits_out_of_range (f := .iType 35 rs rt imm) (by simp) h

theorem exec_sw_out_of_range {rs rt : RegNum} {imm : Imm16} {s : State}
    (h : s.dmem.words ≤ wordIndex (s.effectiveAddress rs imm)) :
    exec (.sw rs rt imm) s = .fault (.dataOutOfRange (s.effectiveAddress rs imm) s.pc) :=
  runUnits_out_of_range (f := .iType 43 rs rt imm) (by simp) h

/-- A store that completes was in range. -/
theorem exec_sw_eq_next {rs rt : RegNum} {imm : Imm16} {s t : State} (h : exec (.sw rs rt imm) s = .next t) :
    wordIndex (s.effectiveAddress rs imm) < s.dmem.words ∧
      t = (s.setDmem (s.dmem.setWord (wordIndex (s.effectiveAddress rs imm)) (s.reg rt))).setPc (s.pc + 4) := by
  by_cases hk : wordIndex (s.effectiveAddress rs imm) < s.dmem.words
  · rw [exec_sw hk] at h
    cases h
    exact ⟨hk, rfl⟩
  · rw [exec_sw_out_of_range (Nat.le_of_not_lt hk)] at h
    cases h

/-- Settles O23: the sum that the ALU makes is the effective address, and the Memory Unit's word goes to `rt`. -/
theorem lwLoadsTheWord : Obligations.LwLoadsTheWord :=
  fun _ _ _ _ h => exec_lw h

/-- Settles O24: as for the load, with `x[rt]` going to the data memory. -/
theorem swStoresTheWord : Obligations.SwStoresTheWord :=
  fun _ _ _ _ h => exec_sw h

/-- Settles O25: both are accesses out of range, at the sum that the ALU makes. -/
theorem dataAccessOutOfRangeFaults : Obligations.DataAccessOutOfRangeFaults :=
  fun _ _ _ _ h => ⟨exec_lw_out_of_range h, exec_sw_out_of_range h⟩

/-- Settles O30: a completed store is the update of one word and of `pc`. -/
theorem swFrame : Obligations.SwFrame := by
  rintro rs rt imm s t ea h rfl
  obtain ⟨-, rfl⟩ := exec_sw_eq_next h
  exact ⟨fun b hb => Memory.readByte_setWord_outside _ _ hb, fun r => rfl⟩

/-- Settles O36: the load's word is the one stored, so it is in range too and reads back. -/
theorem loadSeesTheStoreBeforeIt : Obligations.LoadSeesTheStoreBeforeIt := by
  intro rs rt rs' rt' imm imm' s t hwf h hsame
  obtain ⟨hk, ht⟩ := exec_sw_eq_next h
  have hindex : wordIndex (t.effectiveAddress rs' imm') = wordIndex (s.effectiveAddress rs imm) := hsame
  have hdmem : t.dmem = s.dmem.setWord (wordIndex (s.effectiveAddress rs imm)) (s.reg rt) := by rw [ht]; rfl
  have hrange : wordIndex (t.effectiveAddress rs' imm') < t.dmem.words := by rwa [hindex, hdmem]
  refine ⟨_, exec_lw hrange, ?_⟩
  rw [State.reg_setPc, State.reg_setReg_same, hindex, hdmem, Memory.word_setWord_same _ hwf hk]

end Sys2Proof.Machine
end

section
/-! PROOFS. The branches, and the targets of a transfer (45_control_transfer.md). -/

namespace Sys2Proof.Machine

/-! ## The units on a branch -/

/-- R79, R97, R98: a branch compares by subtracting, and its zero flag says that the registers are equal. -/
theorem aluOutput_branch_zero {f : Fields} (h : f.opcode = 4 ∨ f.opcode = 5) (s : State) :
    (aluOutput (deriveControl f.opcode f.funct) f s).zero = true ↔ s.reg f.rs = s.reg f.rt := by
  have hout : (aluOutput (deriveControl f.opcode f.funct) f s).zero = zeroFlag (s.reg f.rs - s.reg f.rt) := by
    rcases h with h | h <;>
      simp [aluOutput, selectIn1, selectIn2, deriveControl, deriveAluOp, alu, aluAdd, h]
  rw [hout, zeroFlag_iff]
  exact sub_eq_zero

/-- The whole next state of a cycle under a branch's opcode. -/
theorem runUnits_branch {f : Fields} (h : f.opcode = 4 ∨ f.opcode = 5) (s : State) :
    runUnits f s = .next (s.setPc (pcUnit s.pc f (deriveControl f.opcode f.funct)
      (aluOutput (deriveControl f.opcode f.funct) f s).zero)) := by
  have hport : ∀ res memData : Word, writebackPort (deriveControl f.opcode f.funct) f res memData = none := by
    intro res memData
    rcases h with h | h <;> simp [writebackPort, deriveControl, h]
  obtain ⟨hread, hwrite⟩ : (deriveControl f.opcode f.funct).memRead = false ∧
      (deriveControl f.opcode f.funct).memWrite = false := by
    rcases h with h | h <;> simp [deriveControl, h]
  refine runWith_eq_next.mpr ⟨_, memoryUnit_eq_some.mpr (.inr (.inr ⟨hread, hwrite, rfl⟩)), ?_⟩
  rw [hport]
  rfl

/-- R102, first clause. -/
theorem pcUnit_beq (pc : Word) {f : Fields} (h : f.opcode = 4) (zero : Bool) :
    pcUnit pc f (deriveControl f.opcode f.funct) zero = if zero then branchTarget pc f.simm32 else pc + 4 := by
  simp [pcUnit, deriveControl, h]

/-- R102, second clause. -/
theorem pcUnit_bne (pc : Word) {f : Fields} (h : f.opcode = 5) (zero : Bool) :
    pcUnit pc f (deriveControl f.opcode f.funct) zero = if zero then pc + 4 else branchTarget pc f.simm32 := by
  cases zero <;> simp [pcUnit, deriveControl, h]

/-- R151. -/
theorem exec_beq (rs rt : RegNum) (imm : Imm16) (s : State) :
    exec (.beq rs rt imm) s =
      .next (s.setPc (if s.reg rs = s.reg rt then branchTarget s.pc (sext32 imm) else s.pc + 4)) := by
  have hop : (Instr.fields (.beq rs rt imm)).opcode = 4 := rfl
  rw [exec_eq_runUnits, runUnits_branch (.inl hop), pcUnit_beq _ hop]
  simp only [aluOutput_branch_zero (.inl hop)]
  rfl

/-- R152. -/
theorem exec_bne (rs rt : RegNum) (imm : Imm16) (s : State) :
    exec (.bne rs rt imm) s =
      .next (s.setPc (if s.reg rs = s.reg rt then s.pc + 4 else branchTarget s.pc (sext32 imm))) := by
  have hop : (Instr.fields (.bne rs rt imm)).opcode = 5 := rfl
  rw [exec_eq_runUnits, runUnits_branch (.inr hop), pcUnit_bne _ hop]
  simp only [aluOutput_branch_zero (.inr hop)]
  rfl

/-- R153. -/
theorem exec_j (addr : Addr26) (s : State) : exec (.j addr) s = .next (s.setPc (jumpTarget s.pc addr)) :=
  runUnits_jump (f := .jType 2 addr) rfl s

/-- Settles O26: a branch writes `pc` alone, and its zero flag compares the registers. -/
theorem branchesGoByEquality : Obligations.BranchesGoByEquality := by
  intro rs rt imm s
  refine ⟨exec_beq rs rt imm s, ?_⟩
  rw [exec_bne, ← ite_not]
  rfl

/-- Settles O33: the target is made of `pc` and the address field. -/
theorem jumpIgnoresRegisters : Obligations.JumpIgnoresRegisters := by
  intro addr s s' hpc
  refine ⟨_, _, exec_j addr s, exec_j addr s', ?_⟩
  rw [State.setPc_pc, State.setPc_pc, hpc]

/-! ## Branch targets -/

/-- The sign-extended immediate is the number it stands for, modulo 2^32. -/
theorem sext32_eq_ofInt (imm : Imm16) : sext32 imm = BitVec.ofInt 32 imm.toInt := by
  apply BitVec.eq_of_toInt_eq
  have hlo := BitVec.le_toInt imm
  have hhi := BitVec.toInt_lt (x := imm)
  norm_num at hlo hhi
  rw [sext32, BitVec.toInt_signExtend_of_le (by omega), BitVec.toInt_ofInt,
    Int.bmod_eq_of_le (by norm_num; omega) (by norm_num; omega)]

/-- Settles O28: on words the shift is a multiplication by 4, and sums and products of words are those of the exact
numbers modulo 2^32. -/
theorem branchTargetIsExactSum : Obligations.BranchTargetIsExactSum := by
  intro pc imm
  refine ⟨?_, BitVec.le_toInt imm, Int.le_of_lt_add_one BitVec.toInt_lt⟩
  calc branchTarget pc (sext32 imm)
      = pc + 4 + 4 * BitVec.ofInt 32 imm.toInt := by
        rw [branchTarget, BitVec.shiftLeft_eq_mul_twoPow, sext32_eq_ofInt, mul_comm]
        rfl
    _ = BitVec.ofInt 32 (pc.toNat + 4 + 4 * imm.toInt) := by
        rw [BitVec.ofInt_add, BitVec.ofInt_add, BitVec.ofInt_mul, BitVec.ofInt_natCast, BitVec.ofNat_toNat,
          BitVec.setWidth_eq]
        rfl

end Sys2Proof.Machine
end

section
/-! PROOFS. What every instruction changes, where it goes and whether it completes (10_state.md, 60_exceptions.md). -/

namespace Sys2Proof

/-! ## Instructions by their opcode -/

/-- R60: opcode 43 is `sw`'s alone. -/
theorem Instr.eq_sw_of_opcode {i : Instr} (h : i.fields.opcode = 43) : ∃ rs rt imm, i = .sw rs rt imm := by
  cases i with
  | sw rs rt imm => exact ⟨rs, rt, imm, rfl⟩
  | _ => cases h

end Sys2Proof

namespace Sys2Proof.Machine

/-- What an instruction that completes has done: the units' outputs on its own fields, written together. -/
theorem exec_eq_next {i : Instr} {s t : State} (h : exec i s = .next t) :
    ∃ res zero m,
      aluOutput (deriveControl i.fields.opcode i.fields.funct) i.fields s = ⟨res, zero⟩ ∧
      memoryUnit (deriveControl i.fields.opcode i.fields.funct) res (s.reg i.fields.rt) s.dmem = some m ∧
      t = ((s.writeback (writebackPort (deriveControl i.fields.opcode i.fields.funct) i.fields res m.data)).setDmem
        m.dmem).setPc (pcUnit s.pc i.fields (deriveControl i.fields.opcode i.fields.funct) zero) := by
  rw [exec_eq_runUnits] at h
  obtain ⟨m, hm, ht⟩ := runWith_eq_next.mp h
  exact ⟨_, _, m, rfl, hm, ht⟩

/-! ## Frames -/

/-- R10, R103: the write port names the instruction's destination. -/
theorem writebackPort_map_fst (i : Instr) (res memData : Word) :
    (writebackPort (deriveControl i.fields.opcode i.fields.funct) i.fields res memData).map Prod.fst = i.dest := by
  cases i <;> rfl

/-- R103: an instruction that completes leaves every register but its destination. -/
theorem exec_next_reg {i : Instr} {s t : State} (h : exec i s = .next t) {r : RegNum} (hr : i.dest ≠ some r) :
    t.reg r = s.reg r := by
  obtain ⟨res, zero, m, -, -, rfl⟩ := exec_eq_next h
  refine State.reg_writeback_ne s _ r ?_
  rintro q v hport rfl
  apply hr
  rw [← writebackPort_map_fst i res m.data, hport]
  rfl

/-- R101: an instruction that completes and is no store leaves the data memory. -/
theorem exec_next_dmem {i : Instr} {s t : State} (h : exec i s = .next t) (hi : ∀ rs rt imm, i ≠ .sw rs rt imm) :
    t.dmem = s.dmem := by
  obtain ⟨res, zero, m, -, hm, rfl⟩ := exec_eq_next h
  rw [State.setPc_dmem, State.setDmem_dmem]
  obtain ⟨-, -, rfl⟩ | ⟨-, hwrite, -⟩ | ⟨-, -, rfl⟩ := memoryUnit_eq_some.mp hm
  · rfl
  · obtain ⟨rs, rt, imm, hsw⟩ := Instr.eq_sw_of_opcode (deriveControl_memWrite.mp hwrite)
    exact absurd hsw (hi rs rt imm)
  · rfl

/-- Settles O29: the write port, the Memory Unit and the lack of a write port of the instruction memory. -/
theorem instructionFrame : Obligations.InstructionFrame := by
  intro i s t h
  obtain ⟨himem, hwords, -⟩ := exec_next_memories h
  exact ⟨fun r hr => exec_next_reg h hr, fun hi a => by rw [exec_next_dmem h hi], himem, hwords⟩

/-! ## The next `pc` -/

/-- R102: an instruction of no branch's and no jump's opcode goes to the next one. -/
theorem exec_next_pc_sequential {i : Instr} {s t : State} (h : exec i s = .next t)
    (hi : i.fields.opcode ∉ [2#6, 4#6, 5#6]) : t.pc = s.pc + 4 := by
  obtain ⟨res, zero, m, -, -, rfl⟩ := exec_eq_next h
  rw [State.setPc_pc, pcUnit_sequential _ hi]

/-- Settles O31: the branches and the jump have their own targets, every other opcode is sequential. -/
theorem nextPcOfEveryInstruction : Obligations.NextPcOfEveryInstruction := by
  intro i s t h
  cases i
  case beq rs rt imm =>
    rw [exec_beq] at h
    cases h
    rfl
  case bne rs rt imm =>
    rw [exec_bne] at h
    cases h
    rfl
  case j addr =>
    rw [exec_j] at h
    cases h
    rfl
  all_goals exact exec_next_pc_sequential h (by simp [Instr.fields])

/-! ## Completion -/

/-- R101: an instruction of no access's opcode completes. -/
theorem exec_completes_of_no_access {i : Instr} (hi : i.fields.opcode ∉ [35#6, 43#6]) (s : State) :
    ∃ t, exec i s = .next t := by
  simp only [List.mem_cons, List.not_mem_nil, or_false, not_or] at hi
  obtain ⟨hload, hstore⟩ := hi
  have hread := Bool.eq_false_iff.mpr fun hc => hload (deriveControl_memRead (funct := i.fields.funct).mp hc)
  have hwrite := Bool.eq_false_iff.mpr fun hc => hstore (deriveControl_memWrite (funct := i.fields.funct).mp hc)
  rw [exec_eq_runUnits]
  exact ⟨_, runWith_eq_next.mpr ⟨_, memoryUnit_eq_some.mpr (.inr (.inr ⟨hread, hwrite, rfl⟩)), rfl⟩⟩

/-- Settles O32: a load and a store complete or fault by the range of their word index, and no other opcode has an
access that could be out of range. -/
theorem onlyDataAccessesCanStop : Obligations.OnlyDataAccessesCanStop := by
  intro i s
  cases i
  case lw rs rt imm =>
    obtain hk | hk := Nat.lt_or_ge (wordIndex (s.effectiveAddress rs imm)) s.dmem.words
    · exact .inl ⟨_, exec_lw hk⟩
    · exact .inr ⟨rs, rt, imm, .inl rfl, hk, exec_lw_out_of_range hk⟩
  case sw rs rt imm =>
    obtain hk | hk := Nat.lt_or_ge (wordIndex (s.effectiveAddress rs imm)) s.dmem.words
    · exact .inl ⟨_, exec_sw hk⟩
    · exact .inr ⟨rs, rt, imm, .inr rfl, hk, exec_sw_out_of_range hk⟩
  all_goals exact .inl (exec_completes_of_no_access (by simp [Instr.fields]) s)

end Sys2Proof.Machine
end

section
/-! PROOFS. Words of memory (20_memory.md). -/

namespace Sys2Proof.Machine

/-- R35: the two low bits of a byte address do not choose the word. -/
theorem wordIndex_ofNat {k j : Nat} (hj : j < 4) (ha : 4 * k + j < 2 ^ 32) :
    wordIndex (BitVec.ofNat 32 (4 * k + j)) = k := by
  rw [wordIndex, BitVec.toNat_ofNat, Nat.mod_eq_of_lt ha]
  omega

/-- Settles O34: all four addresses have the word's index, below the size. -/
theorem fourAddressesNameOneWord : Obligations.FourAddressesNameOneWord := by
  intro m k j v hj ha hk
  have hindex := wordIndex_ofNat hj ha
  exact ⟨Memory.load_eq_some.mpr ⟨by rwa [hindex], by rw [hindex]⟩,
    Memory.store_eq_some.mpr ⟨by rwa [hindex], by rw [hindex]⟩⟩

/-- Settles O35: the laws of one word's replacement. -/
theorem wordReadsWhatWasStored : Obligations.WordReadsWhatWasStored :=
  fun m _ v hwf hk => ⟨Memory.word_setWord_same v hwf hk, fun _ hne => Memory.word_setWord_ne m v hne,
    fun _ ha => Memory.readByte_setWord_outside m v ha, Memory.wf_setWord v hwf hk⟩

end Sys2Proof.Machine
end

section
/-! PROOFS. A step by what it fetches, and the cycle of the units (40_datapath_units.md R105, 60_exceptions.md). -/

namespace Sys2Proof.Machine

/-! ## Every outcome of a fetch -/

/-- R164: no cycle is attempted at a misaligned `pc`. -/
theorem step_of_misaligned {s : State} (ha : pcAligned s.pc = false) : step s = .refused (.misalignedPc s.pc) := by
  simp [step, fetchInstr, ha]

/-- R162: nothing is fetched beyond the image. -/
theorem step_of_load_none {s : State} (ha : pcAligned s.pc = true) (hw : s.imem.load s.pc = none) :
    step s = .fault (.fetchOutOfRange s.pc) := by
  simp [step, fetchInstr, fetchWord, raise, ha, hw]

/-- R105: a fetched word that the decoder reads is run. -/
theorem step_of_decode_ok {s : State} {w : Word} {i : Instr} (ha : pcAligned s.pc = true)
    (hw : s.imem.load s.pc = some w) (hd : decode w = .ok i) : step s = exec i s := by
  have hfetch : fetchInstr s = .next i := fetchInstr_eq_next.mpr ⟨ha, w, hw, hd⟩
  simp [step, hfetch]

/-- Settles O38: a fetch of such a word answers its instruction. -/
theorem stepRunsTheDecodedInstruction : Obligations.StepRunsTheDecodedInstruction :=
  fun _ _ _ hpc hw hd => step_of_decode_ok (pcAligned_iff.mpr hpc) hw hd

/-- Settles O40: the Fetcher comes first, and has no word there. -/
theorem fetchOutOfRangeFaults : Obligations.FetchOutOfRangeFaults :=
  fun _ hpc hrange => step_of_load_none (pcAligned_iff.mpr hpc) (Memory.load_eq_none.mpr hrange)

/-- Settles O41: the decoder refuses such a word, before anything reads a register or the data memory. -/
theorem illegalWordFaults : Obligations.IllegalWordFaults := by
  intro s w hpc hw hlegal
  obtain ⟨e, hd⟩ := decode_of_not_legal hlegal
  exact step_of_decode_error (pcAligned_iff.mpr hpc) hw hd

/-- R164, of numbers. -/
theorem pcAligned_eq_false_iff {pc : Word} : pcAligned pc = false ↔ pc.toNat % 4 ≠ 0 := by
  rw [← Bool.not_eq_true, pcAligned_iff]

/-- Settles O42: a step and a launch both ask for alignment before anything else. -/
theorem misalignedPcIsRefused : Obligations.MisalignedPcIsRefused := by
  constructor
  · exact fun s hpc => step_of_misaligned (pcAligned_eq_false_iff.mpr hpc)
  · intro l hpc
    have ha := pcAligned_eq_false_iff.mpr hpc
    simp [launch, ha]

/-! ## The cycle on the raw word -/

/-- R105 on a legal word: the units run on its fields. -/
theorem cycle_of_legal {s : State} {w : Word} (ha : pcAligned s.pc = true) (hw : s.imem.load s.pc = some w)
    (hlegal : legalPair (Fields.ofWord w).opcode (Fields.ofWord w).funct = true) :
    cycle s = runUnits (Fields.ofWord w) s := by
  have hc := control_eq_some.mpr ⟨hlegal, rfl⟩
  simp [cycle, runUnits, ha, hw, hc]

/-- R105, R160 on any other word: the Control Unit has no vector. -/
theorem cycle_of_not_legal {s : State} {w : Word} (ha : pcAligned s.pc = true) (hw : s.imem.load s.pc = some w)
    (hlegal : legalPair (Fields.ofWord w).opcode (Fields.ofWord w).funct = false) :
    cycle s = .fault (.illegalInstruction w s.pc) := by
  have hc := control_eq_none.mpr hlegal
  simp [cycle, raise, ha, hw, hc]

/-- Settles O39: both stop alike without a legal word; a legal word's instruction has the word's fields, and every
meaning is the units run on the instruction's fields. -/
theorem stepIsTheCycleOfTheUnits : Obligations.StepIsTheCycleOfTheUnits := by
  intro s
  cases ha : pcAligned s.pc with
  | false =>
    rw [step_of_misaligned ha]
    simp [cycle, ha]
  | true =>
    cases hw : s.imem.load s.pc with
    | none =>
      rw [step_of_load_none ha hw]
      simp [cycle, raise, ha, hw]
    | some w =>
      cases hlegal : legalPair (Fields.ofWord w).opcode (Fields.ofWord w).funct with
      | false =>
        obtain ⟨e, hd⟩ := decode_of_not_legal hlegal
        rw [step_of_decode_error ha hw hd, cycle_of_not_legal ha hw hlegal]
      | true =>
        obtain ⟨i, hd⟩ := decode_of_legal hlegal
        rw [step_of_decode_ok ha hw hd, cycle_of_legal ha hw hlegal, exec_eq_runUnits, decode_eq_ok_iff.mp hd]

/-! ## Two words run -/

/-- Writing a register with what it holds changes nothing. -/
@[simp] theorem State.setReg_reg (s : State) (r : RegNum) : s.setReg r (s.reg r) = s := by
  rw [State.setReg_eq, State.reg, Vector.set_getElem_self]

/-- Settles O43: the word decodes to the shift of register 0 by 0 into itself. -/
theorem zeroWordIsANoOp : Obligations.ZeroWordIsANoOp := by
  intro s hpc hw
  have hd : decode 0 = .ok (.sll 0 0 0 0) := by decide
  have hres : (aluOutput (deriveControl 0 0) (.rType 0 0 0 0 0) s).result = s.reg 0 :=
    (aluOutput_sll_result _ s).trans (BitVec.shiftLeft_zero _)
  calc step s
      = exec (.sll 0 0 0 0) s := step_of_decode_ok (pcAligned_iff.mpr hpc) hw hd
    _ = .next ((s.setReg 0 (aluOutput (deriveControl 0 0) (.rType 0 0 0 0 0) s).result).setPc (s.pc + 4)) :=
      runUnits_rType (f := .rType 0 0 0 0 0) rfl s
    _ = .next { s with pc := s.pc + 4 } := by
      rw [hres, State.setReg_reg]
      rfl

/-- R31 to R33: the word index is the slice above the two low bits. -/
theorem wordIndex_eq_extractLsb' (a : Word) : wordIndex a = (a.extractLsb' 2 30).toNat := by
  rw [BitVec.extractLsb'_toNat, Nat.shiftRight_eq_div_pow, wordIndex, Nat.mod_eq_of_lt]
  omega

/-- The placed word stands where the next step fetches. -/
theorem load_fetchWordPlaced {s : State} (w : Word) (hwf : s.imem.wf = true) :
    (fetchWordPlaced s w).imem.load (fetchWordPlaced s w).pc = some w := by
  have hindex : wordIndex (fetchWordPlaced s w).pc = wordIndex s.pc := by
    rw [wordIndex_eq_extractLsb', wordIndex_eq_extractLsb']
    exact congrArg BitVec.toNat (extractLsb'_of_masked (mask := 0xFFFFFFFC) rfl (by decide)).symm
  have hroom : wordIndex s.pc < max s.imem.words (wordIndex s.pc + 1) := by omega
  have hgrown : Memory.wf { s.imem with words := max s.imem.words (wordIndex s.pc + 1) } = true :=
    Cells.canonical_grow (Nat.mul_le_mul_left 4 (Nat.le_max_left ..)) hwf
  refine Memory.load_eq_some.mpr ⟨?_, ?_⟩
  · rw [hindex]
    exact hroom
  · rw [hindex]
    exact Memory.word_setWord_same w hgrown hroom

/-- The fetch address is made a multiple of 4. -/
theorem pcAligned_fetchWordPlaced (s : State) (w : Word) : pcAligned (fetchWordPlaced s w).pc = true := by
  have hmask : BitVec.extractLsb' 0 2 0xFFFFFFFC#32 = 0 := by decide
  have hlow : (s.pc &&& 0xFFFFFFFC#32).extractLsb' 0 2 = 0 := by
    rw [BitVec.extractLsb'_and, hmask]
    exact BitVec.and_zero
  exact beq_iff_eq.mpr hlow

/-- Settles O44: the placed word, at an aligned address inside the grown image, is what the next step fetches. -/
theorem placedWordRunsNext : Obligations.PlacedWordRunsNext := by
  intro s w i hwf hd
  have hword : BitVec.ofNat 32 (w % 2 ^ 32) = BitVec.ofNat 32 w := by
    apply BitVec.eq_of_toNat_eq
    simp
  rw [State.withFetchWord, hword]
  exact step_of_decode_ok (pcAligned_fetchWordPlaced s _) (load_fetchWordPlaced _ hwf) hd

end Sys2Proof.Machine
end

section
/-! PROOFS. The invariant: a step keeps it, reset and every launch within the limits meet it (10_state.md,
70_reset_and_hazards.md). -/

namespace Sys2Proof.Machine

/-! ## Alignment of the next `pc` -/

theorem add_four_mod_four {pc : Word} (h : pc.toNat % 4 = 0) : (pc + 4).toNat % 4 = 0 := by
  rw [BitVec.toNat_add]
  simp only [BitVec.toNat_ofNat, BitVec.ofNat_eq_ofNat]
  omega

/-- R14, R56: the offset of a branch is a multiple of 4. -/
theorem branchTarget_mod_four {pc : Word} (simm32 : Word) (h : pc.toNat % 4 = 0) :
    (branchTarget pc simm32).toNat % 4 = 0 := by
  have hnext : (pc + 4#32).toNat % 4 = 0 := add_four_mod_four h
  have hoffset : (simm32 <<< 2).toNat % 4 = 0 := by
    rw [BitVec.toNat_shiftLeft, Nat.shiftLeft_eq]
    omega
  rw [branchTarget, BitVec.toNat_add]
  omega

/-- R14, R57: a jump's target ends in two zero bits. -/
theorem jumpTarget_mod_four (pc : Word) (addr : Addr26) : (jumpTarget pc addr).toNat % 4 = 0 := by
  rw [jumpTarget_eq_append, BitVec.toNat_append, BitVec.toNat_ofNat, Nat.zero_mod, Nat.or_zero, Nat.shiftLeft_eq]
  omega

/-- R14: the PC Unit keeps `pc` a multiple of 4. -/
theorem pcUnit_mod_four {pc : Word} (f : Fields) (c : ControlVector) (zero : Bool) (h : pc.toNat % 4 = 0) :
    (pcUnit pc f c zero).toNat % 4 = 0 := by
  rw [pcUnit]
  split_ifs
  · exact branchTarget_mod_four f.simm32 h
  · exact branchTarget_mod_four f.simm32 h
  · exact jumpTarget_mod_four pc f.addr26
  · exact add_four_mod_four h

/-! ## The step -/

/-- An instruction that completes keeps the invariant. -/
theorem exec_keeps_inv {i : Instr} {s t : State} (hinv : s.Inv) (h : exec i s = .next t) : t.Inv := by
  obtain ⟨hpc, himem, hdmem, hlo, hhi, hsize⟩ := hinv
  obtain ⟨himem', hwords, hcanonical⟩ := exec_next_memories h
  have hpc' : t.pc.toNat % 4 = 0 := by
    obtain ⟨res, zero, m, -, -, rfl⟩ := exec_eq_next h
    exact pcUnit_mod_four _ _ _ hpc
  rw [State.Inv, himem', hwords]
  exact ⟨hpc', himem, hcanonical hdmem, hlo, hhi, hsize⟩

/-- Settles O45: a step that completes is an instruction that completes. -/
theorem stepKeepsTheInvariant : Obligations.StepKeepsTheInvariant := by
  intro s t hinv h
  obtain ⟨w, i, -, -, -, hexec⟩ := step_eq_next.mp h
  exact exec_keeps_inv hinv hexec

/-! ## Reset and launch -/

/-- The state of a launch that is not refused (R181, R182). -/
def Launch.state (l : Launch) : State where
  x    := l.registers
  pc   := l.resetPc
  imem := Memory.fill (Memory.empty l.imemWords) 0 l.image
  dmem := Memory.fill (Memory.empty l.dmemWords) 0 l.data

/-- R183: the limits, of numbers. -/
theorem Launch.sizesOk_iff {l : Launch} :
    l.sizesOk = true ↔ 1 ≤ l.imemWords ∧ l.imemWords ≤ Config.maxWords ∧ l.dmemWords ≤ Config.maxWords ∧
      l.image.length ≤ l.imemWords ∧ l.data.length ≤ l.dmemWords := by
  simp [Launch.sizesOk, and_assoc]

/-- R164, R183: an aligned launch within the limits is not refused. -/
theorem launch_of_sizesOk {l : Launch} (ha : pcAligned l.resetPc = true) (hs : l.sizesOk = true) :
    launch l = .next l.state := by
  simp [launch, Launch.state, ha, hs]

/-- Such a launch makes a state that meets the invariant. -/
theorem Launch.inv_state {l : Launch} (ha : pcAligned l.resetPc = true) (hs : l.sizesOk = true) : l.state.Inv := by
  obtain ⟨hlo, hhi, hdata, himage, hfit⟩ := Launch.sizesOk_iff.mp hs
  have himem : l.state.imem.wf = true := Memory.wf_fill (Memory.wf_empty _) (by rwa [Nat.zero_add])
  have hdmem : l.state.dmem.wf = true := Memory.wf_fill (Memory.wf_empty _) (by rwa [Nat.zero_add])
  have hiwords : l.state.imem.words = l.imemWords := Memory.fill_words ..
  have hdwords : l.state.dmem.words = l.dmemWords := Memory.fill_words ..
  rw [State.Inv, hiwords, hdwords]
  exact ⟨pcAligned_iff.mp ha, himem, hdmem, hlo, hhi, hdata⟩

/-- What a launch lists stands at the beginning of a memory. -/
theorem Memory.word_fill_empty {n : Nat} {ws : List Word} (hfit : ws.length ≤ n) {k : Nat} (hk : k < ws.length) :
    (Memory.fill (Memory.empty n) 0 ws).word k = ws[k] := by
  have h := Memory.word_fill (k := 0) (Memory.wf_empty n) (by rwa [Nat.zero_add]) hk
  rwa [Nat.zero_add] at h

/-- Settles O48: within the limits the launch is not refused, and its state has each part as supplied. -/
theorem launchMakesTheStateSupplied : Obligations.LaunchMakesTheStateSupplied := by
  intro l hpc hlo hhi hdata himage hfit
  have ha := pcAligned_iff.mpr hpc
  have hs := Launch.sizesOk_iff.mpr ⟨hlo, hhi, hdata, himage, hfit⟩
  exact ⟨l.state, launch_of_sizesOk ha hs, Launch.inv_state ha hs, rfl, rfl, Memory.fill_words .., Memory.fill_words ..,
    fun _ hk => Memory.word_fill_empty himage hk, fun _ hk => Memory.word_fill_empty hfit hk⟩

/-- The reset state is the state of the default launch. -/
theorem Launch.state_default : Launch.default.state = State.reset := rfl

/-- The default launch is within the limits. -/
theorem Launch.sizesOk_default : Launch.default.sizesOk = true :=
  Launch.sizesOk_iff.mpr ⟨by decide, Nat.le_refl _, Nat.le_refl _, Nat.zero_le _, Nat.zero_le _⟩

/-- Settles O46: the reset state is a launch's. -/
theorem resetMeetsTheInvariant : Obligations.ResetMeetsTheInvariant :=
  Launch.inv_state (l := .default) rfl Launch.sizesOk_default

/-- Settles O47: the default launch is not refused; the values are the model's defaults. -/
theorem resetIsTheDefaultLaunch : Obligations.ResetIsTheDefaultLaunch :=
  ⟨launch_of_sizesOk rfl Launch.sizesOk_default, rfl, fun _ => Vector.getElem_replicate .., rfl, rfl⟩

end Sys2Proof.Machine
end

section
/-! PROOFS. How runs end (60_exceptions.md R161, 70_reset_and_hazards.md R184). -/

namespace Sys2Proof.Machine

/-- A run goes on from the next state. -/
theorem runCycles_succ_of_next {n : Nat} {s t : State} (h : step s = .next t) :
    runCycles (n + 1) s = runCycles n t := by
  simp [runCycles, h]

/-- A run whose cycles all complete completes its first. -/
theorem runCycles_succ_eq_normal {n : Nat} {s u : State} :
    runCycles (n + 1) s = .normal u ↔ ∃ t, step s = .next t ∧ runCycles n t = .normal u := by
  cases hstep : step s <;> simp [runCycles, hstep]

/-- A run that faults does so in its first cycle or, if that completes, in a later one. -/
theorem runCycles_succ_eq_faulted {n : Nat} {s u : State} {r : Fault} :
    runCycles (n + 1) s = .faulted r u ↔
      (step s = .fault r ∧ u = s) ∨ ∃ t, step s = .next t ∧ runCycles n t = .faulted r u := by
  cases hstep : step s <;> simp [runCycles, hstep, eq_comm]

/-- Settles O49, by induction on the number of cycles. -/
theorem faultedRunKeepsItsState : Obligations.FaultedRunKeepsItsState := by
  intro n
  induction n with
  | zero =>
    intro s u r h
    cases h
  | succ n ih =>
    intro s u r h
    obtain ⟨hfault, rfl⟩ | ⟨t, hstep, hrest⟩ := runCycles_succ_eq_faulted.mp h
    · exact ⟨hfault, 0, Nat.succ_pos n, rfl⟩
    · obtain ⟨hfault, k, hk, hrun⟩ := ih t u r hrest
      exact ⟨hfault, k + 1, Nat.succ_lt_succ hk, (runCycles_succ_of_next hstep).trans hrun⟩

/-! ## `HALT_PC` -/

/-- The boundary after `k` completed cycles from `s` is `t` and is the first with `pc = h`. -/
def FirstHalt (h : Word) (k : Nat) (s t : State) : Prop :=
  runCycles k s = .normal t ∧ t.pc = h ∧ ∀ j : Nat, j < k → ∃ u, runCycles j s = .normal u ∧ u.pc ≠ h

theorem firstHalt_zero {h : Word} {s t : State} : FirstHalt h 0 s t ↔ s.pc = h ∧ s = t := by
  constructor
  · rintro ⟨hrun, hpc, -⟩
    cases hrun
    exact ⟨hpc, rfl⟩
  · rintro ⟨hpc, rfl⟩
    exact ⟨rfl, hpc, fun j hj => absurd hj j.not_lt_zero⟩

/-- The first halt is later exactly when it is not here and is the first from the next state. -/
theorem firstHalt_succ {h : Word} {k : Nat} {s t : State} :
    FirstHalt h (k + 1) s t ↔ s.pc ≠ h ∧ ∃ v, step s = .next v ∧ FirstHalt h k v t := by
  constructor
  · rintro ⟨hrun, hpc, hbefore⟩
    obtain ⟨v, hstep, hrest⟩ := runCycles_succ_eq_normal.mp hrun
    obtain ⟨u, hu, hne⟩ := hbefore 0 k.succ_pos
    cases hu
    refine ⟨hne, v, hstep, hrest, hpc, fun j hj => ?_⟩
    obtain ⟨u, hu, hune⟩ := hbefore (j + 1) (Nat.succ_lt_succ hj)
    rw [runCycles_succ_of_next hstep] at hu
    exact ⟨u, hu, hune⟩
  · rintro ⟨hne, v, hstep, hrest, hpc, hbefore⟩
    refine ⟨(runCycles_succ_of_next hstep).trans hrest, hpc, fun j hj => ?_⟩
    cases j with
    | zero => exact ⟨s, rfl, hne⟩
    | succ j =>
      rw [runCycles_succ_of_next hstep]
      exact hbefore j (Nat.lt_of_succ_lt_succ hj)

/-- At a state with `pc = h` the run is over. -/
theorem runToHalt_of_halted {h : Word} {s : State} (n : Nat) (hpc : s.pc = h) : runToHalt h n s = .normal s := by
  cases n <;> simp [runToHalt, hpc]

/-- At any other state it goes on by a step. -/
theorem runToHalt_succ_eq_normal {h : Word} {n : Nat} {s t : State} (hpc : s.pc ≠ h) :
    runToHalt h (n + 1) s = .normal t ↔ ∃ v, step s = .next v ∧ runToHalt h n v = .normal t := by
  cases hstep : step s <;> simp [runToHalt, hpc, hstep]

/-- A state with `pc = h` is its own first halt, after no cycle. -/
theorem exists_firstHalt_of_halted {h : Word} {n : Nat} {s t : State} (hpc : s.pc = h) :
    (∃ k, k ≤ n ∧ FirstHalt h k s t) ↔ s = t := by
  constructor
  · rintro ⟨k, -, hfirst⟩
    cases k with
    | zero => exact (firstHalt_zero.mp hfirst).2
    | succ k => exact absurd hpc (firstHalt_succ.mp hfirst).1
  · exact fun hst => ⟨0, Nat.zero_le n, firstHalt_zero.mpr ⟨hpc, hst⟩⟩

/-- Any other state's first halt is that of the next state, one cycle later. -/
theorem exists_firstHalt_succ {h : Word} {n : Nat} {s t : State} (hpc : s.pc ≠ h) :
    (∃ k, k ≤ n + 1 ∧ FirstHalt h k s t) ↔ ∃ v, step s = .next v ∧ ∃ k, k ≤ n ∧ FirstHalt h k v t := by
  constructor
  · rintro ⟨k, hk, hfirst⟩
    cases k with
    | zero => exact absurd (firstHalt_zero.mp hfirst).1 hpc
    | succ k =>
      obtain ⟨-, v, hstep, hrest⟩ := firstHalt_succ.mp hfirst
      exact ⟨v, hstep, k, Nat.le_of_succ_le_succ hk, hrest⟩
  · rintro ⟨v, hstep, k, hk, hrest⟩
    exact ⟨k + 1, Nat.succ_le_succ hk, firstHalt_succ.mpr ⟨hpc, v, hstep, hrest⟩⟩

/-- Settles O50, by induction on the number of cycles allowed: a run and the first halt both end here or go on from the
next state. -/
theorem haltPolicyStopsAtFirstBoundary : Obligations.HaltPolicyStopsAtFirstBoundary := by
  intro h n
  change ∀ s t, runToHalt h n s = .normal t ↔ ∃ k, k ≤ n ∧ FirstHalt h k s t
  induction n with
  | zero =>
    intro s t
    by_cases hpc : s.pc = h
    · rw [runToHalt_of_halted 0 hpc, exists_firstHalt_of_halted hpc, RunEnd.normal.injEq]
    · simp [runToHalt, hpc, firstHalt_zero]
  | succ n ih =>
    intro s t
    by_cases hpc : s.pc = h
    · rw [runToHalt_of_halted (n + 1) hpc, exists_firstHalt_of_halted hpc, RunEnd.normal.injEq]
    · rw [runToHalt_succ_eq_normal hpc, exists_firstHalt_succ hpc]
      simp only [ih]

end Sys2Proof.Machine
end
